-- ==== Sys2Proof/Word.lean ====
section
/-! DEFINITION. The widths of the hardware: bytes, 16-bit words, register numbers and key indices
(`00_scope.md` R9, R14: all values are unsigned, bit 0 is the least significant). -/

namespace Sys2Proof

/-- A byte: a V register, a timer, a memory cell (`00_scope.md` R9). -/
abbrev Byte := BitVec 8

/-- A 16-bit value: an opcode, I, pc, a return address (`00_scope.md` R9). -/
abbrev Word := BitVec 16

/-- The number of a V register, 0 to 15 (`10_state.md` R21). -/
abbrev VReg := Fin 16

/-- A key index, 0x0 to 0xF (`10_state.md` R31). -/
abbrev Key := Fin 16

/-- The register VF, which is `V[15]` (`10_state.md` R22). -/
abbrev vf : VReg := 15

end Sys2Proof
end

