-- ==== Sys2Proof/Syntax.lean ====
section
/-! DEFINITION. The instructions: one constructor for each of the 16 rows of `spec/opcode_table.json`
(`30_encoding.md` R74, R82). -/

namespace Sys2Proof

/-- The instructions of the opcode map, operands as `30_encoding.md` R73 gives them. -/
inductive Instr where
  /-- `CLS`, 00E0. -/
  | cls
  /-- `RET`, 00EE. -/
  | ret
  /-- `JP nnn`, 1nnn. -/
  | jp (nnn : BitVec 12)
  /-- `CALL nnn`, 2nnn. -/
  | call (nnn : BitVec 12)
  /-- `SE Vx, nn`, 3xnn. -/
  | seVxNn (x : VReg) (nn : Byte)
  /-- `LD Vx, nn`, 6xnn. -/
  | ldVxNn (x : VReg) (nn : Byte)
  /-- `ADD Vx, nn`, 7xnn. -/
  | addVxNn (x : VReg) (nn : Byte)
  /-- `LD I, nnn`, Annn. -/
  | ldINnn (nnn : BitVec 12)
  /-- `DRW Vx, Vy, n`, Dxyn. -/
  | drwVxVyN (x y : VReg) (n : BitVec 4)
  /-- `SKP Vx`, Ex9E. -/
  | skpVx (x : VReg)
  /-- `SKNP Vx`, ExA1. -/
  | sknpVx (x : VReg)
  /-- `LD Vx, K`, Fx0A. -/
  | ldVxK (x : VReg)
  /-- `LD DT, Vx`, Fx15. -/
  | ldDtVx (x : VReg)
  /-- `LD ST, Vx`, Fx18. -/
  | ldStVx (x : VReg)
  /-- `LD Vx, DT`, Fx07. -/
  | ldVxDt (x : VReg)
  /-- The fallback row: any word that matches no pattern (`30_encoding.md` R77, R82; log entry 12). -/
  | unknownOpcode (w : Word)
  deriving DecidableEq, Repr

end Sys2Proof
end

