-- ==== Sys2Proof/WellFormed.lean ====
section
/-! DEFINITION. The opcode map as masks and matches (`30_encoding.md` R74), and when an `Instr` term is an
instruction of it: only `unknownOpcode` can be ill-formed, every other operand is right by its type. -/

namespace Sys2Proof

/-- One row of the opcode map: an opcode `op` is the instruction when `op & mask = value` (`30_encoding.md` R74). -/
structure OpcodeRow where
  mask : Word
  value : Word
  deriving DecidableEq, Repr

/-- `op & mask = match` (`30_encoding.md` R74). -/
def OpcodeRow.covers (row : OpcodeRow) (w : Word) : Bool := (w &&& row.mask) == row.value

/-- The 15 patterns, in the order of the table of `30_encoding.md` R74. -/
def opcodeRows : List OpcodeRow := [
  ⟨0xFFFF, 0x00E0⟩, ⟨0xFFFF, 0x00EE⟩, ⟨0xF000, 0x1000⟩, ⟨0xF000, 0x2000⟩, ⟨0xF000, 0x3000⟩,
  ⟨0xF000, 0x6000⟩, ⟨0xF000, 0x7000⟩, ⟨0xF000, 0xA000⟩, ⟨0xF000, 0xD000⟩, ⟨0xF0FF, 0xE09E⟩,
  ⟨0xF0FF, 0xE0A1⟩, ⟨0xF0FF, 0xF00A⟩, ⟨0xF0FF, 0xF015⟩, ⟨0xF0FF, 0xF018⟩, ⟨0xF0FF, 0xF007⟩]

/-- A word that matches one of the 15 patterns (`30_encoding.md` R76, R77). -/
def isKnownWord (w : Word) : Bool := opcodeRows.any fun row => row.covers w

/-- Well-formed: an `unknownOpcode` carries a word of the unknown class (`30_encoding.md` R77). -/
def Instr.wellFormed : Instr → Bool
  | .unknownOpcode w => !isKnownWord w
  | .cls | .ret | .jp _ | .call _ | .seVxNn _ _ | .ldVxNn _ _ | .addVxNn _ _ | .ldINnn _
  | .drwVxVyN _ _ _ | .skpVx _ | .sknpVx _ | .ldVxK _ | .ldDtVx _ | .ldStVx _ | .ldVxDt _ => true

end Sys2Proof
end

