-- ==== Sys2Proof/Decode.lean ====
section
/-! DEFINITION. Decoding, total on every word and on every byte sequence, and the encoder beside it
(`30_encoding.md` R70 to R78). -/

namespace Sys2Proof

/-! ### The fields of an opcode (`30_encoding.md` R71) -/

/-- The top nibble, `op[15:12]`. -/
def fieldTop (op : Word) : BitVec 4 := op.extractLsb' 12 4

/-- `x = op[11:8]`. -/
def fieldX (op : Word) : VReg := ⟨(op.extractLsb' 8 4).toNat, (op.extractLsb' 8 4).isLt⟩

/-- `y = op[7:4]`. -/
def fieldY (op : Word) : VReg := ⟨(op.extractLsb' 4 4).toNat, (op.extractLsb' 4 4).isLt⟩

/-- `n = op[3:0]`. -/
def fieldN (op : Word) : BitVec 4 := op.extractLsb' 0 4

/-- `nn = op[7:0]`. -/
def fieldNn (op : Word) : Byte := op.extractLsb' 0 8

/-- `nnn = op[11:0]`. -/
def fieldNnn (op : Word) : BitVec 12 := op.extractLsb' 0 12

/-! ### From a word to an instruction -/

/-- Group 0: only the two whole words 0x00E0 and 0x00EE are instructions (`30_encoding.md` R75, conflict C1;
DESIGN CHOICE of the spec, D11: log entry 11). -/
def decodeGroup0 (op : Word) : Instr :=
  if op = 0x00E0 then .cls
  else if op = 0x00EE then .ret
  else .unknownOpcode op

/-- Group E, by its low byte (`30_encoding.md` R75). -/
def decodeGroupE (op : Word) : Instr :=
  match (fieldNn op).toNat with
  | 0x9E => .skpVx (fieldX op)
  | 0xA1 => .sknpVx (fieldX op)
  | _ => .unknownOpcode op

/-- Group F, by its low byte (`30_encoding.md` R75). -/
def decodeGroupF (op : Word) : Instr :=
  match (fieldNn op).toNat with
  | 0x07 => .ldVxDt (fieldX op)
  | 0x0A => .ldVxK (fieldX op)
  | 0x15 => .ldDtVx (fieldX op)
  | 0x18 => .ldStVx (fieldX op)
  | _ => .unknownOpcode op

/-- The dispatch on the top nibble (`30_encoding.md` R75, R77); it cannot fail (R76). -/
def decodeWord (op : Word) : Instr :=
  match (fieldTop op).toNat with
  | 0x0 => decodeGroup0 op
  | 0x1 => .jp (fieldNnn op)
  | 0x2 => .call (fieldNnn op)
  | 0x3 => .seVxNn (fieldX op) (fieldNn op)
  | 0x6 => .ldVxNn (fieldX op) (fieldNn op)
  | 0x7 => .addVxNn (fieldX op) (fieldNn op)
  | 0xA => .ldINnn (fieldNnn op)
  | 0xD => .drwVxVyN (fieldX op) (fieldY op) (fieldN op)
  | 0xE => decodeGroupE op
  | 0xF => decodeGroupF op
  | _ => .unknownOpcode op

/-! ### Bytes: the more significant byte at the lower address (`30_encoding.md` R70, `20_memory.md` R53) -/

/-- `hi : lo`, a 16-bit big-endian word. -/
def wordOfBytes (hi lo : Byte) : Word := hi ++ lo

/-- The byte at the lower address, bits 15 to 8. -/
def highByte (op : Word) : Byte := op.extractLsb' 8 8

/-- The byte at the higher address, bits 7 to 0. -/
def lowByte (op : Word) : Byte := op.extractLsb' 0 8

/-- Why a byte sequence holds no instruction. -/
inductive DecodeReject where
  /-- Fewer than two bytes: no instruction has another length (`30_encoding.md` R70; log entry 19). -/
  | tooFewBytes
  deriving DecidableEq, Repr

/-- The first instruction of a byte sequence, and the bytes after it. -/
def decodeBytes : List Byte → Except DecodeReject (Instr × List Byte)
  | hi :: lo :: rest => .ok (decodeWord (wordOfBytes hi lo), rest)
  | [_] => .error .tooFewBytes
  | [] => .error .tooFewBytes

/-! ### The encoder (the formats of `30_encoding.md` R72, the matches of R74) -/

/-- Format NNN: `op[15:12]` = group, `op[11:0]` = nnn. -/
def encodeNnn (group : Nat) (nnn : BitVec 12) : Word := BitVec.ofNat 16 (group * 0x1000 + nnn.toNat)

/-- Formats XNN and XFN: `op[15:12]` = group, `op[11:8]` = x, `op[7:0]` = nn or the function byte. -/
def encodeXnn (group : Nat) (x : VReg) (nn : Byte) : Word :=
  BitVec.ofNat 16 (group * 0x1000 + x.val * 0x100 + nn.toNat)

/-- Format XYN: `op[15:12]` = group, `op[11:8]` = x, `op[7:4]` = y, `op[3:0]` = n. -/
def encodeXyn (group : Nat) (x y : VReg) (n : BitVec 4) : Word :=
  BitVec.ofNat 16 (group * 0x1000 + x.val * 0x100 + y.val * 0x10 + n.toNat)

/-- The word of an instruction (`30_encoding.md` R72, R74). -/
def encode : Instr → Word
  | .cls => 0x00E0
  | .ret => 0x00EE
  | .jp nnn => encodeNnn 0x1 nnn
  | .call nnn => encodeNnn 0x2 nnn
  | .seVxNn x nn => encodeXnn 0x3 x nn
  | .ldVxNn x nn => encodeXnn 0x6 x nn
  | .addVxNn x nn => encodeXnn 0x7 x nn
  | .ldINnn nnn => encodeNnn 0xA nnn
  | .drwVxVyN x y n => encodeXyn 0xD x y n
  | .skpVx x => encodeXnn 0xE x 0x9E
  | .sknpVx x => encodeXnn 0xE x 0xA1
  | .ldVxK x => encodeXnn 0xF x 0x0A
  | .ldDtVx x => encodeXnn 0xF x 0x15
  | .ldStVx x => encodeXnn 0xF x 0x18
  | .ldVxDt x => encodeXnn 0xF x 0x07
  | .unknownOpcode w => w

/-- The two bytes of an instruction in memory order (`30_encoding.md` R70). -/
def encodeBytes (i : Instr) : List Byte := [highByte (encode i), lowByte (encode i)]

/-! ### The assembler's notation (`30_encoding.md` R74, R80, R81; the spec's decision D18, notation only) -/

/-- A hexadecimal digit. -/
def hexDigit (d : Nat) : String := ["0", "1", "2", "3", "4", "5", "6", "7", "8", "9", "A", "B", "C", "D", "E", "F"].getD d "0"

/-- A number in hexadecimal, of the given count of digits. -/
def hexDigits : Nat → Nat → String
  | 0, _ => ""
  | k + 1, n => hexDigits k (n / 16) ++ hexDigit (n % 16)

/-- An immediate operand, written in hexadecimal with the mark 0x. -/
def immediateText (digits n : Nat) : String := "0x" ++ hexDigits digits n

/-- A register operand, V0 to VF. -/
def registerText (x : VReg) : String := "V" ++ hexDigit x.val

/-- The assembly of an instruction, as the table of R74 writes it; an unknown opcode is the directive `DW` (R81). -/
def assembly : Instr → String
  | .cls => "CLS"
  | .ret => "RET"
  | .jp nnn => "JP " ++ immediateText 3 nnn.toNat
  | .call nnn => "CALL " ++ immediateText 3 nnn.toNat
  | .seVxNn x nn => "SE " ++ registerText x ++ ", " ++ immediateText 2 nn.toNat
  | .ldVxNn x nn => "LD " ++ registerText x ++ ", " ++ immediateText 2 nn.toNat
  | .addVxNn x nn => "ADD " ++ registerText x ++ ", " ++ immediateText 2 nn.toNat
  | .ldINnn nnn => "LD I, " ++ immediateText 3 nnn.toNat
  | .drwVxVyN x y n => "DRW " ++ registerText x ++ ", " ++ registerText y ++ ", " ++ immediateText 1 n.toNat
  | .skpVx x => "SKP " ++ registerText x
  | .sknpVx x => "SKNP " ++ registerText x
  | .ldVxK x => "LD " ++ registerText x ++ ", K"
  | .ldDtVx x => "LD DT, " ++ registerText x
  | .ldStVx x => "LD ST, " ++ registerText x
  | .ldVxDt x => "LD " ++ registerText x ++ ", DT"
  | .unknownOpcode w => "DW " ++ immediateText 4 w.toNat

/-! ### The host's numbering -/

/-- The opcode whose low `nbits` bits are those of `w`, every bit above them 0. -/
def tableWord (nbits w : Nat) : Word := BitVec.ofNat 16 (w % 2 ^ nbits)

/-- The instruction the decoder reads from the opcode numbered as `spec/opcode_table.json` numbers it: its two bytes
laid out big-endian and given to `decodeBytes`. -/
def decodeTableWord (nbits w : Nat) : Option Instr :=
  match decodeBytes [highByte (tableWord nbits w), lowByte (tableWord nbits w)] with
  | .ok (i, _) => some i
  | .error _ => none

end Sys2Proof
end

