-- ==== Sys2Proof/Config.lean ====
section
/-! DEFINITION. The implementation parameters (`00_scope.md` R9 to R13): the fixed sizes, and `FONT`,
`KEY_ORDER`, `STACK_DEPTH`. The two that the spec leaves OPEN are opaque: no proof can see a value of them. -/

namespace Sys2Proof.Config

/-- The number of bytes of memory: addresses 0x000 to 0xFFF (`00_scope.md` R9, `20_memory.md` R50). -/
abbrev memorySize : Nat := 4096

/-- Where `LoadROM` starts and where pc stands after reset (`20_memory.md` R51, R60; `10_state.md` R36). -/
abbrev programStart : Nat := 0x200

/-- The largest ROM, 3584 bytes (`00_scope.md` R9). -/
abbrev romMax : Nat := 3584

/-- The number of display rows (`00_scope.md` R9). -/
abbrev rows : Nat := 32

/-- The number of display columns (`00_scope.md` R9). -/
abbrev columns : Nat := 64

/-- The number of font bytes, at 0x000 to 0x04F (`00_scope.md` R11). -/
abbrev fontSize : Nat := 80

/-- The parameter `FONT` (`00_scope.md` R11, D5, OPEN): the 80 bytes `Reset()` writes at 0x000 to 0x04F.
UNVERIFIED, safe: the source gives no value, so the model fixes none (log entry 4). -/
opaque font : Vector Byte fontSize

/-- The parameter `KEY_ORDER` (`00_scope.md` R12, D8, OPEN): a permutation `p` of the 16 key indices;
`p 0` is visited first. UNVERIFIED, safe: any of the 16! orders (log entry 5). -/
opaque keyOrder : Equiv.Perm Key

/-- The parameter `STACK_DEPTH` (`00_scope.md` R10, D9): the normative value is "no limit" (log entry 6). -/
def stackDepth : Option Nat := none

end Sys2Proof.Config
end

