-- ==== Sys2Proof/Machine/State.lean ====
section
/-! DEFINITION. The architectural state (`10_state.md` R20 to R33), its value after `Reset()` (R36), and the
reasons a machine can record or answer. -/

namespace Sys2Proof.Machine

/-- The fatal execution errors (`10_state.md` R33, `60_exceptions.md` R160 to R165). The spec describes their entry: a
fault is RECORDED in `State.fault` and the event ends in a NEXT state (`60_exceptions.md` R166, log entry 1), so no
meaning and no step answers `Host.Outcome.fault`. Safe: after a recorded fault nothing executes any more. -/
inductive Fault where
  /-- Raised by `RET` on an empty call stack (`60_exceptions.md` R161). Safe. -/
  | stackUnderflow
  /-- Raised by a read at an address above 0xFFF: by the fetch and by `DRW` (`60_exceptions.md` R162). Safe: the
  hardware may wrap instead (D6), log entry 14. -/
  | memoryBounds (addr : Nat)
  /-- Raised by `SKP` and `SKNP` when V[x] = v > 15 (`60_exceptions.md` R163). Safe: the hardware may mask (D7),
  log entry 14. -/
  | keyIndex (v : Byte)
  /-- Raised by a push beyond a finite `STACK_DEPTH` (`60_exceptions.md` R164); never with the normative unbounded
  stack. Safe, log entry 6. -/
  | stackOverflow
  deriving DecidableEq, Repr

/-- Why the model gives no meaning. No instruction's meaning answers one of these. -/
inductive Refusal where
  /-- An instruction that has no meaning yet, answered by its arm of `exec`. Safe. No arm answers it. -/
  | notModelled (mnemonic : String)
  /-- `LoadROM` after the first `Cycle()`: "A `LoadROM` after the first `Cycle()` is outside the spec: a model refuses
  it" (`20_memory.md` R62). Answered by `deliver`, by no instruction. Safe, log entry 9. -/
  | loadAfterFirstCycle
  deriving DecidableEq, Repr

/-- The bytes of memory that differ from the reset contents, in canonical form (`Memory.wf`); log entry 7. -/
abbrev Memory := List Host.Cell

/-- The complete state of the core, the twelve elements of `10_state.md` R20 and nothing else. -/
structure State where
  /-- V0..VF (`10_state.md` R21). -/
  v : Vector Byte 16
  /-- The address register I (`10_state.md` R23). -/
  i : Word
  /-- The program counter (`10_state.md` R24). -/
  pc : Word
  /-- The call stack, the top entry first (`10_state.md` R26; log entry 13). -/
  stack : List Word
  /-- `delay_timer` (`10_state.md` R27). -/
  delayTimer : Byte
  /-- `sound_timer` (`10_state.md` R28). -/
  soundTimer : Byte
  /-- `mem[0..4095]` (`10_state.md` R29). -/
  mem : Memory
  /-- `fb[0..31][0..63]`, row first, true for 1 (`10_state.md` R30; log entry 20). -/
  fb : Vector (Vector Bool Config.columns) Config.rows
  /-- `keys[0..15]`, true when held (`10_state.md` R31). -/
  keys : Vector Bool 16
  /-- `waiting_for_key` (`10_state.md` R32). -/
  waitingForKey : Bool
  /-- `key_register` (`10_state.md` R32). -/
  keyRegister : VReg
  /-- The fault record; `none` is the spec's `None` (`10_state.md` R33). -/
  fault : Option Fault
  deriving DecidableEq, Repr

/-- The state after `Reset()` (`10_state.md` R36, `70_reset_and_hazards.md` R190): memory lists nothing, and an unlisted
address reads as FONT or 0x00 (`Memory.unlisted`). The zeros are the spec's decisions D2 to D4: log entry 3. -/
def State.reset : State where
  v := Vector.replicate 16 0
  i := 0
  pc := 0x200
  stack := []
  delayTimer := 0
  soundTimer := 0
  mem := []
  fb := Vector.replicate Config.rows (Vector.replicate Config.columns false)
  keys := Vector.replicate 16 false
  waitingForKey := false
  keyRegister := 0
  fault := none

end Sys2Proof.Machine
end

