-- ==== Sys2Proof/Machine/Ops.lean ====
section
/-! DEFINITION. The named operations over the state: memory, registers, stack, timers, pixels, the fetch, and taking a
fault. Every meaning is written over these. -/

namespace Sys2Proof.Machine

/-! ### Memory (`20_memory.md`) -/

/-- What an address that memory does not list reads as: the reset contents, FONT at 0x000 to 0x04F and 0x00 above
(`10_state.md` R36, `20_memory.md` R51; log entry 7). -/
def Memory.unlisted (a : Nat) : Byte := if h : a < Config.fontSize then Config.font[a] else 0

/-- `mem[a]`. -/
def Memory.get : Memory → Nat → Byte
  | [], a => Memory.unlisted a
  | (k, b) :: rest, a => if k = a then b else Memory.get rest a

/-- The entry for a byte, or no entry when it is what an unlisted address reads as. -/
def Memory.entry (a : Nat) (b : Byte) : Memory := if b = Memory.unlisted a then [] else [(a, b)]

/-- `mem[a] <- b`, keeping the canonical form. -/
def Memory.put : Memory → Nat → Byte → Memory
  | [], a, b => Memory.entry a b
  | (k, c) :: rest, a, b =>
    if a < k then Memory.entry a b ++ (k, c) :: rest
    else if a = k then Memory.entry a b ++ rest
    else (k, c) :: Memory.put rest a b

/-- `mem[a + j] <- bytes[j]` for every j (`20_memory.md` R60). -/
def Memory.putAll : Memory → Nat → List Byte → Memory
  | m, _, [] => m
  | m, a, b :: rest => Memory.putAll (Memory.put m a b) (a + 1) rest

/-- The canonical form: addresses strictly rising, each below 4096, no entry equal to what its address reads as
unlisted. -/
abbrev Memory.wf (m : Memory) : Prop :=
  m.Pairwise (fun p q => p.1 < q.1) ∧ ∀ c ∈ m, c.1 < Config.memorySize ∧ c.2 ≠ Memory.unlisted c.1

/-- `MemRead(a, 1)`: the byte, or the fault `MemoryBounds(a)` above 0xFFF (`00_scope.md` R15, `20_memory.md` R56); the
address is an exact integer (R57). -/
def State.memRead (s : State) (a : Nat) : Except Fault Byte :=
  if a ≤ 0xFFF then .ok (s.mem.get a) else .error (.memoryBounds a)

/-- `MemWrite(a, 1, b)` under the same bound (`00_scope.md` R15); no instruction uses it. -/
def State.memWrite (s : State) (a : Nat) (b : Byte) : Except Fault State :=
  if a ≤ 0xFFF then .ok { s with mem := s.mem.put a b } else .error (.memoryBounds a)

/-! ### Registers (`10_state.md` R21, R23, R24) -/

/-- `V[r]`. -/
def State.readV (s : State) (r : VReg) : Byte := s.v[r.val]

/-- `V[r] <- b`. -/
def State.writeV (s : State) (r : VReg) (b : Byte) : State := { s with v := s.v.set r.val b }

/-- `I <- a`. -/
def State.setI (s : State) (a : Word) : State := { s with i := a }

/-- `pc <- a`. -/
def State.setPc (s : State) (a : Word) : State := { s with pc := a }

/-- `pc <- (pc + 2) mod 65536`, the advance of the fetch (`40_cycle.md` R92; log entry 18). -/
def State.advancePc (s : State) : State := { s with pc := s.pc + 2 }

/-- `pc <- (pc + 2) mod 65536`, a taken skip (`41_flow.md` R103). -/
def State.skipNext (s : State) : State := { s with pc := s.pc + 2 }

/-! ### The call stack (`10_state.md` R26) -/

/-- `Push(a)` on a stack of at most `depth` entries (`00_scope.md` R10, R15; `60_exceptions.md` R164). -/
def State.push (s : State) (depth : Option Nat) (a : Word) : Except Fault State :=
  match depth with
  | none => .ok { s with stack := a :: s.stack }
  | some d => if s.stack.length < d then .ok { s with stack := a :: s.stack } else .error .stackOverflow

/-- `Pop()`: the top entry and the state without it (`00_scope.md` R15, `60_exceptions.md` R161). -/
def State.pop (s : State) : Except Fault (Word × State) :=
  match s.stack with
  | top :: rest => .ok (top, { s with stack := rest })
  | [] => .error .stackUnderflow

/-! ### Timers (`10_state.md` R27, R28; `40_cycle.md` R96) -/

/-- `delay_timer <- b`. -/
def State.setDelay (s : State) (b : Byte) : State := { s with delayTimer := b }

/-- `sound_timer <- b`. -/
def State.setSound (s : State) (b : Byte) : State := { s with soundTimer := b }

/-- One timer decremented by 1 when it is above 0. -/
def decrement (t : Byte) : Byte := if 0 < t.toNat then t - 1 else t

/-- `Tick()`. -/
def State.tick (s : State) : State :=
  { s with delayTimer := decrement s.delayTimer, soundTimer := decrement s.soundTimer }

/-! ### The framebuffer (`10_state.md` R30) -/

/-- `fb[r][c]`. -/
def State.pixel (s : State) (r : Fin Config.rows) (c : Fin Config.columns) : Bool := s.fb[r.val][c.val]

/-- `fb[r][c] <- fb[r][c] ^ 1`. -/
def State.flipPixel (s : State) (r : Fin Config.rows) (c : Fin Config.columns) : State :=
  { s with fb := s.fb.set r.val (s.fb[r.val].set c.val (!s.fb[r.val][c.val])) }

/-- `fb[r][c] <- 0` for every r and c (`43_display.md` R120). -/
def State.clearPixels (s : State) : State :=
  { s with fb := Vector.replicate Config.rows (Vector.replicate Config.columns false) }

/-! ### The keypad and the key-wait (`10_state.md` R31, R32) -/

/-- `keys[k]`. -/
def State.keyHeld (s : State) (k : Key) : Bool := s.keys[k.val]

/-- `key_register <- x`, `waiting_for_key <- true` (`44_keypad.md` R132). -/
def State.suspend (s : State) (x : VReg) : State := { s with keyRegister := x, waitingForKey := true }

/-! ### Taking a fault (`60_exceptions.md` R166) -/

/-- `raise f`: the record is set, and every other element stays as the steps already performed left it. There is no
saved pc, no vector and no handler; nothing returns from a fault (R166, R167). -/
def State.raise (s : State) (f : Fault) : State := { s with fault := some f }

/-- The end of an operation that may raise: its state, or the fault taken from `s`. -/
def State.orRaise (s : State) : Except Fault State → State
  | .ok t => t
  | .error f => s.raise f

/-! ### The fetch and the end of a cycle (`40_cycle.md` R90, R91) -/

/-- `hi <- MemRead(pc, 1)`, `lo <- MemRead(pc + 1, 1)`, `op <- hi : lo`; the sum is exact (`20_memory.md` R57). -/
def State.fetch (s : State) : Except Fault Word :=
  match s.memRead s.pc.toNat with
  | .error f => .error f
  | .ok hi =>
    match s.memRead (s.pc.toNat + 1) with
    | .error f => .error f
    | .ok lo => .ok (wordOfBytes hi lo)

/-- What follows step (6) of a cycle: the tick, unless the instruction raised a fault (`40_cycle.md` R90, R96). -/
def State.endCycle (s : State) : State := if s.fault.isSome then s else s.tick

/-- The end of the cycle after an instruction's outcome. -/
def endCycle : Host.Outcome State Fault Refusal → Host.Outcome State Fault Refusal
  | .next s => .next s.endCycle
  | .fault f => .fault f
  | .refused r => .refused r

end Sys2Proof.Machine
end

