-- ==== Sys2Proof/Machine/Flags.lean ====
section
/-! DEFINITION. The one flag, VF, and the one computation of it, the collision detector of `DRW` (`10_state.md` R22,
`43_display.md` R121). No other instruction writes a flag. -/

namespace Sys2Proof.Machine

/-- `V[15] <- 0`, the start of a draw. -/
def State.clearCollision (s : State) : State := s.writeV vf 0

/-- `if fb[r][c] == 1: V[15] <- 1`; once set it stays set for the rest of the draw. -/
def State.noteCollision (s : State) (r : Fin Config.rows) (c : Fin Config.columns) : State :=
  if s.pixel r c then s.writeV vf 1 else s

end Sys2Proof.Machine
end

