-- ==== Sys2Proof/Machine/Operands.lean ====
section
/-! DEFINITION. The operand forms (`30_encoding.md` R73): the immediates, the key index in a register, and the
coordinates, address and bits of a sprite. -/

namespace Sys2Proof.Machine

/-- `zext_16(nnn)`: a 12-bit immediate as an address (`30_encoding.md` R73). -/
def zext16 (nnn : BitVec 12) : Word := nnn.setWidth 16

/-- The key index in V[x]: the whole 8-bit value, and `KeyIndex` above 15 (`44_keypad.md` R130; log entry 14). -/
def keyOperand (s : State) (x : VReg) : Except Fault Key :=
  if h : (s.readV x).toNat < 16 then .ok ⟨(s.readV x).toNat, h⟩ else .error (.keyIndex (s.readV x))

/-- `x0 = V[x] mod 64` (`43_display.md` R121). -/
def startColumn (s : State) (x : VReg) : Nat := (s.readV x).toNat % 64

/-- `y0 = V[y] mod 32` (`43_display.md` R121). -/
def startRow (s : State) (y : VReg) : Nat := (s.readV y).toNat % 32

/-- `I + r`, an exact integer (`20_memory.md` R57). -/
def spriteAddress (s : State) (r : Nat) : Nat := s.i.toNat + r

/-- Bit `c` of a sprite byte, 0 the most significant: `b[7 - c]` (`43_display.md` R121). -/
def spriteBit (b : Byte) (c : Nat) : Bool := b.getLsbD (7 - c)

end Sys2Proof.Machine
end

