-- ==== Sys2Proof/Machine/Display.lean ====
section
/-! DEFINITION. The display: `CLS` and `DRW`, the XOR blit with clipping and its collision detector
(`43_display.md`). -/

namespace Sys2Proof.Machine

/-- `CLS` (`43_display.md` R120). -/
def execCls (s : State) : Host.Outcome State Fault Refusal := .next s.clearPixels

/-- One sprite bit that is 1, on the pixel (r, c): collision, then toggle (`43_display.md` R121). -/
def drawPixel (r : Fin Config.rows) (c : Fin Config.columns) (s : State) : State :=
  (s.noteCollision r c).flipPixel r c

/-- The inner loop over the columns `c` of one sprite byte: a clipped column breaks this loop only. -/
def drawColumns (row : Fin Config.rows) (x0 : Nat) (b : Byte) : List Nat → State → State
  | [], s => s
  | c :: rest, s =>
    if h : x0 + c < Config.columns then
      drawColumns row x0 b rest (if spriteBit b c then drawPixel row ⟨x0 + c, h⟩ s else s)
    else s

/-- The outer loop over the sprite rows `r`: a clipped row ends the draw before its byte is read; a read above 0xFFF
raises `MemoryBounds` and keeps the rows already drawn (`43_display.md` R121, `60_exceptions.md` R162; log entry 2). -/
def drawRows (x0 y0 : Nat) : List Nat → State → State
  | [], s => s
  | r :: rest, s =>
    if h : y0 + r < Config.rows then
      match s.memRead (spriteAddress s r) with
      | .ok b => drawRows x0 y0 rest (drawColumns ⟨y0 + r, h⟩ x0 b (List.range 8) s)
      | .error f => s.raise f
    else s

/-- `DRW Vx, Vy, n` (`43_display.md` R121): the coordinates are read before VF is cleared (R122 (g), log entry 17). -/
def execDrwVxVyN (x y : VReg) (n : BitVec 4) (s : State) : Host.Outcome State Fault Refusal :=
  .next (drawRows (startColumn s x) (startRow s y) (List.range n.toNat) s.clearCollision)

end Sys2Proof.Machine
end

