-- ==== Sys2Proof/Machine/Flow.lean ====
section
/-! DEFINITION. Control transfer: `RET`, `JP`, `CALL`, `SE` (`41_flow.md`). Each meaning is step (6) of
`40_cycle.md` R90: pc already stands at the next instruction. -/

namespace Sys2Proof.Machine

/-- `RET` (`41_flow.md` R100): `pc <- Pop()`, or `StackUnderflow` (`60_exceptions.md` R161). -/
def execRet (s : State) : Host.Outcome State Fault Refusal :=
  match s.pop with
  | .ok (a, t) => .next (t.setPc a)
  | .error f => .next (s.raise f)

/-- `JP nnn` (`41_flow.md` R101). -/
def execJp (nnn : BitVec 12) (s : State) : Host.Outcome State Fault Refusal := .next (s.setPc (zext16 nnn))

/-- `CALL nnn` on a stack of the given depth (`41_flow.md` R102, `60_exceptions.md` R164). -/
def callWith (depth : Option Nat) (nnn : BitVec 12) (s : State) : State :=
  match s.push depth s.pc with
  | .ok t => t.setPc (zext16 nnn)
  | .error f => s.raise f

/-- `CALL nnn` (`41_flow.md` R102) with the normative `STACK_DEPTH` (log entry 6). -/
def execCall (nnn : BitVec 12) (s : State) : Host.Outcome State Fault Refusal :=
  .next (callWith Config.stackDepth nnn s)

/-- `SE Vx, nn` (`41_flow.md` R103). -/
def execSeVxNn (x : VReg) (nn : Byte) (s : State) : Host.Outcome State Fault Refusal :=
  .next (if s.readV x = nn then s.skipNext else s)

end Sys2Proof.Machine
end

