-- ==== Sys2Proof/Machine/Keypad.lean ====
section
/-! DEFINITION. The keypad: `SKP`, `SKNP`, `LD Vx, K`, and the key-wait's resolution (`44_keypad.md`). -/

namespace Sys2Proof.Machine

/-- `SKP Vx` (`44_keypad.md` R130). -/
def execSkpVx (x : VReg) (s : State) : Host.Outcome State Fault Refusal :=
  match keyOperand s x with
  | .ok k => .next (if s.keyHeld k then s.skipNext else s)
  | .error f => .next (s.raise f)

/-- `SKNP Vx` (`44_keypad.md` R131). -/
def execSknpVx (x : VReg) (s : State) : Host.Outcome State Fault Refusal :=
  match keyOperand s x with
  | .ok k => .next (if s.keyHeld k then s else s.skipNext)
  | .error f => .next (s.raise f)

/-- `LD Vx, K` (`44_keypad.md` R132): it does not look at `keys`; its own cycle still ticks (log entry 16). -/
def execLdVxK (x : VReg) (s : State) : Host.Outcome State Fault Refusal := .next (s.suspend x)

/-- The 16 key indices in the order in which a resolution visits them (`00_scope.md` R12). -/
def visitOrder (order : Equiv.Perm Key) : List Key := (List.finRange 16).map order

/-- The first held key of the order (`44_keypad.md` R134, R135). -/
def firstHeld (order : Equiv.Perm Key) (keys : Vector Bool 16) : Option Key :=
  (visitOrder order).find? fun j => keys[j.val]

/-- `keys[i] <- k[i]` for all 16 i (`44_keypad.md` R133). -/
def State.setKeys (s : State) (k : Vector Bool 16) : State := { s with keys := k }

/-- The resolution of a pending key-wait, on the key states now in `keys` (`44_keypad.md` R134): the key index goes to
`V[key_register]` as an 8-bit value and the wait ends; with no key held nothing happens. -/
def State.resolveWait (s : State) (order : Equiv.Perm Key) : State :=
  match firstHeld order s.keys with
  | some j => { s.writeV s.keyRegister (BitVec.ofNat 8 j.val) with waitingForKey := false }
  | none => s

/-- `InputRefresh(k)` on a machine whose `KEY_ORDER` is `order` (`44_keypad.md` R133). -/
def inputRefreshWith (order : Equiv.Perm Key) (k : Vector Bool 16) (s : State) : State :=
  if s.fault.isSome then s
  else if s.waitingForKey then (s.setKeys k).resolveWait order
  else s.setKeys k

/-- `InputRefresh(k)` (`44_keypad.md` R133) with the machine's own, open, `KEY_ORDER` (log entry 5). -/
def inputRefresh (k : Vector Bool 16) (s : State) : State := inputRefreshWith Config.keyOrder k s

end Sys2Proof.Machine
end

