-- ==== Sys2Proof/Machine/LoadAdd.lean ====
section
/-! DEFINITION. Register load and add: `LD Vx`, `ADD Vx`, `LD I` (`42_load_add.md`). -/

namespace Sys2Proof.Machine

/-- `LD Vx, nn` (`42_load_add.md` R110). -/
def execLdVxNn (x : VReg) (nn : Byte) (s : State) : Host.Outcome State Fault Refusal := .next (s.writeV x nn)

/-- `ADD Vx, nn` (`42_load_add.md` R111): the sum modulo 256, no carry and no flag. -/
def execAddVxNn (x : VReg) (nn : Byte) (s : State) : Host.Outcome State Fault Refusal :=
  .next (s.writeV x (s.readV x + nn))

/-- `LD I, nnn` (`42_load_add.md` R112). -/
def execLdINnn (nnn : BitVec 12) (s : State) : Host.Outcome State Fault Refusal := .next (s.setI (zext16 nnn))

end Sys2Proof.Machine
end

