-- ==== Sys2Proof/Machine/Timers.lean ====
section
/-! DEFINITION. The timer instructions `LD DT, Vx`, `LD ST, Vx`, `LD Vx, DT` (`45_timers.md`). -/

namespace Sys2Proof.Machine

/-- `LD DT, Vx` (`45_timers.md` R145); the tick of the same cycle follows (log entry 16). -/
def execLdDtVx (x : VReg) (s : State) : Host.Outcome State Fault Refusal := .next (s.setDelay (s.readV x))

/-- `LD ST, Vx` (`45_timers.md` R146). -/
def execLdStVx (x : VReg) (s : State) : Host.Outcome State Fault Refusal := .next (s.setSound (s.readV x))

/-- `LD Vx, DT` (`45_timers.md` R147): the value before this cycle's tick. -/
def execLdVxDt (x : VReg) (s : State) : Host.Outcome State Fault Refusal := .next (s.writeV x s.delayTimer)

end Sys2Proof.Machine
end

