-- ==== Sys2Proof/Machine/Unknown.lean ====
section
/-! DEFINITION. The unknown opcodes (`40_cycle.md` R95). -/

namespace Sys2Proof.Machine

/-- An unknown opcode: step (6) of the cycle changes no state, whatever the word (`40_cycle.md` R95; log entry 12). -/
def execUnknownOpcode (_w : Word) (s : State) : Host.Outcome State Fault Refusal := .next s

end Sys2Proof.Machine
end

