-- ==== Sys2Proof/Machine/Step.lean ====
section
/-! DEFINITION. `Cycle()`, the step of the machine (`40_cycle.md` R90), and the placing of one instruction where the
next step fetches. -/

namespace Sys2Proof.Machine

/-- `Cycle()` (`40_cycle.md` R90): nothing in the faulted state (R98) or while suspended (R97); otherwise fetch, advance,
decode, execute, tick. Every outcome is a next state: a fault is recorded in it (log entry 1). The other three events
stand in `Machine/Events.lean` (log entry 8). -/
def step (s : State) : Host.Outcome State Fault Refusal :=
  if s.fault.isSome then .next s
  else if s.waitingForKey then .next s
  else
    match s.fetch with
    | .error f => .next (s.raise f)
    | .ok op => endCycle (exec (decodeWord op) s.advancePc)

/-- Where the next instruction is fetched from once the machine can fetch: pc, or the entry point when no fetch at pc can
succeed (pc > 0xFFE). -/
def State.fetchAddress (s : State) : Word := if s.pc.toNat ≤ 0xFFE then s.pc else 0x200

/-- `s` with one instruction stored where `step` fetches next, big-endian, able to fetch it: not faulted, not suspended,
pc at most 0xFFE (log entry 10). In a state that can fetch, only the two bytes of memory change. -/
def State.withFetchWord (s : State) (nbits w : Nat) : State :=
  { s with
    pc := s.fetchAddress
    fault := none
    waitingForKey := false
    mem := (s.mem.put s.fetchAddress.toNat (highByte (tableWord nbits w))).put (s.fetchAddress.toNat + 1)
      (lowByte (tableWord nbits w)) }

end Sys2Proof.Machine
end

