-- ==== Sys2Proof/Machine/Events.lean ====
section
/-! DEFINITION. The four events of the core, its three outputs, the reference schedule, and the host's protocol around
them (`00_scope.md` R5 to R7, `20_memory.md` R60 to R62, `70_reset_and_hazards.md` R190 to R195, R202). -/

namespace Sys2Proof.Machine

/-! ### `LoadROM` -/

/-- The failure of `LoadROM`, reported to the host; it is no fault (`60_exceptions.md` R179). -/
inductive LoadError where
  /-- A ROM of more than 3584 bytes (`20_memory.md` R61). -/
  | romTooLong
  deriving DecidableEq, Repr

/-- `LoadROM(bytes)` (`20_memory.md` R60, R61): all or nothing; in the faulted state it changes nothing
(`60_exceptions.md` R167). The length is looked at first (log entry 9). -/
def loadRom (bytes : List Byte) (s : State) : Except LoadError State :=
  if Config.romMax < bytes.length then .error .romTooLong
  else if s.fault.isSome then .ok s
  else .ok { s with mem := s.mem.putAll Config.programStart bytes }

/-! ### The outputs (`00_scope.md` R7) -/

/-- `Framebuffer()`. -/
def framebuffer (s : State) : Vector (Vector Bool Config.columns) Config.rows := s.fb

/-- `SoundActive()`: `sound_timer > 0` (`45_timers.md` R149). -/
def soundActive (s : State) : Bool := decide (0 < s.soundTimer.toNat)

/-- `FaultStatus()`. -/
def faultStatus (s : State) : Option Fault := s.fault

/-- The cause codes of `60_exceptions.md` R165. -/
def faultCode : Option Fault → Nat
  | none => 0
  | some .stackUnderflow => 1
  | some (.memoryBounds _) => 2
  | some (.keyIndex _) => 3
  | some .stackOverflow => 4

/-- The value that accompanies a cause code (`60_exceptions.md` R165). -/
def faultValue : Option Fault → Option Nat
  | some (.memoryBounds a) => some a
  | some (.keyIndex v) => some v.toNat
  | none | some .stackUnderflow | some .stackOverflow => none

/-! ### Events and the host's protocol -/

/-- The four events (`00_scope.md` R6). -/
inductive Event where
  | reset
  | loadRom (bytes : List Byte)
  | inputRefresh (k : Vector Bool 16)
  | cycle
  deriving DecidableEq, Repr

/-- The core and the one thing of the host's protocol that its events' meanings need: whether a `Cycle()` has been issued
since the last `Reset()` (`20_memory.md` R62; log entry 9). `started` is no state of the core (`10_state.md` R20). -/
structure Session where
  core : State
  started : Bool
  deriving DecidableEq, Repr

/-- The session right after `Reset()`. -/
def Session.reset : Session := ⟨State.reset, false⟩

/-- `LoadROM` in a session: nothing in the faulted state (`60_exceptions.md` R167), refused after the first `Cycle()`
(`20_memory.md` R62), nothing stored on a `LoadError` (R61). -/
def deliverLoad (bytes : List Byte) (m : Session) : Host.Outcome Session Fault Refusal :=
  if m.core.fault.isSome then .next m
  else if m.started then .refused .loadAfterFirstCycle
  else
    match loadRom bytes m.core with
    | .ok s => .next ⟨s, m.started⟩
    | .error _ => .next m

/-- `Cycle()` in a session. -/
def deliverCycle (m : Session) : Host.Outcome Session Fault Refusal :=
  match step m.core with
  | .next s => .next ⟨s, true⟩
  | .fault f => .fault f
  | .refused r => .refused r

/-- One event, at an event boundary (`00_scope.md` R5, R6). -/
def deliver (e : Event) (m : Session) : Host.Outcome Session Fault Refusal :=
  match e with
  | .reset => .next Session.reset
  | .loadRom bytes => deliverLoad bytes m
  | .inputRefresh k => .next ⟨inputRefresh k m.core, m.started⟩
  | .cycle => deliverCycle m

/-- A finite sequence of events in order, ending at the first refusal (`70_reset_and_hazards.md` R195). -/
def deliverAll : List Event → Session → Host.Outcome Session Fault Refusal
  | [], m => .next m
  | e :: rest, m =>
    match deliver e m with
    | .next t => deliverAll rest t
    | .fault f => .fault f
    | .refused r => .refused r

/-- One iteration of the reference schedule, `InputRefresh(k)` then `Cycle()` (`70_reset_and_hazards.md` R194). -/
def iteration (k : Vector Bool 16) (s : State) : Host.Outcome State Fault Refusal := step (inputRefresh k s)

end Sys2Proof.Machine
end

