-- ==== Sys2Proof/Safety.lean ====
section
/-! DEFINITION. The terms in which claims are stated: what stays unchanged, the invariant of reachable states, how a run
ends, and what a draw shows. -/

namespace Sys2Proof.Machine

/-! ### Frames -/

/-- The twelve elements of the state (`10_state.md` R20). -/
inductive Element where
  | v | i | pc | stack | delayTimer | soundTimer | mem | fb | keys | waitingForKey | keyRegister | fault
  deriving DecidableEq, Repr

/-- An element reads the same in both states; memory and pixels are compared read by read. -/
def Element.same (s t : State) : Element → Prop
  | .v => ∀ r, t.readV r = s.readV r
  | .i => t.i = s.i
  | .pc => t.pc = s.pc
  | .stack => t.stack = s.stack
  | .delayTimer => t.delayTimer = s.delayTimer
  | .soundTimer => t.soundTimer = s.soundTimer
  | .mem => ∀ a, t.memRead a = s.memRead a
  | .fb => ∀ r c, t.pixel r c = s.pixel r c
  | .keys => ∀ k, t.keyHeld k = s.keyHeld k
  | .waitingForKey => t.waitingForKey = s.waitingForKey
  | .keyRegister => t.keyRegister = s.keyRegister
  | .fault => t.fault = s.fault

/-- Every element that is not named reads the same in both states. -/
def SameExcept (named : List Element) (s t : State) : Prop := ∀ e, e ∉ named → e.same s t

/-! ### The invariant of reachable states (`10_state.md` R37) -/

/-- What a fault record of a run can say (`60_exceptions.md` R162, R163, R164). A recorded address is the first one above
0xFFF that a draw or a fetch met, so with (a) and (b) of `10_state.md` R37 it lies in 0x1000 to 0x1002. -/
def Fault.possible : Fault → Prop
  | .stackUnderflow => True
  | .memoryBounds a => 0x1000 ≤ a ∧ a ≤ 0x1002
  | .keyIndex v => 15 < v.toNat
  | .stackOverflow => False

/-- (a) to (c) of `10_state.md` R37, the canonical form of memory, and a fault record that can arise. The other clauses of
R37 hold by the types of the fields or speak of two states. -/
structure State.Inv (s : State) : Prop where
  i_le : s.i.toNat ≤ 0x0FFF
  pc_le : s.pc.toNat ≤ 0x1002
  stack_le : ∀ a ∈ s.stack, a.toNat ≤ 0x1000
  mem_wf : s.mem.wf
  fault_possible : ∀ f, s.fault = some f → f.possible

/-- The sessions that some sequence of events reaches from `Reset()` (`70_reset_and_hazards.md` R195). -/
inductive Reachable : Session → Prop where
  | reset : Reachable Session.reset
  | event {m m' : Session} (e : Event) : Reachable m → deliver e m = .next m' → Reachable m'

/-! ### Cycles -/

/-- A `Cycle()` at `s` fetches (`00_scope.md` R19). -/
abbrev State.running (s : State) : Prop := s.fault = none ∧ s.waitingForKey = false

/-- An executed cycle that does not fault. -/
abbrev ExecutedCycle (s t : State) : Prop := s.running ∧ step s = .next t ∧ t.fault = none

/-- The instruction that a `Cycle()` at `s` executes. -/
def State.current (s : State) : Option Instr :=
  match s.fetch with
  | .ok op => some (decodeWord op)
  | .error _ => none

/-- A stretch of a run with `j` executed cycles, none of which executes an instruction that `writes` names; suspended cycles
and input refreshes in between do not count (`45_timers.md` R148). -/
inductive TimerRun (writes : Instr → Prop) : Nat → State → State → Prop where
  | done (s : State) : TimerRun writes 0 s s
  | executed {j : Nat} {s u t : State} : ExecutedCycle s u → (∀ i, s.current = some i → ¬ writes i) →
      TimerRun writes j u t → TimerRun writes (j + 1) s t
  | suspended {j : Nat} {s u t : State} : s.waitingForKey = true → step s = .next u →
      TimerRun writes j u t → TimerRun writes j s t
  | refreshed {j : Nat} {s t : State} (k : Vector Bool 16) :
      TimerRun writes j (inputRefresh k s) t → TimerRun writes j s t

/-- pc after an executed cycle that fetched `i` at `s` and did not fault (`10_state.md` R25): `s.pc + 2` unless the
instruction says otherwise. -/
def nextPc (i : Instr) (s : State) : Word :=
  match i with
  | .ret => s.stack.headD 0
  | .jp nnn | .call nnn => zext16 nnn
  | .seVxNn x nn => if s.readV x = nn then s.pc + 4 else s.pc + 2
  | .skpVx x => if (∃ k : Key, k.val = (s.readV x).toNat ∧ s.keyHeld k = true) then s.pc + 4 else s.pc + 2
  | .sknpVx x => if (∃ k : Key, k.val = (s.readV x).toNat ∧ s.keyHeld k = false) then s.pc + 4 else s.pc + 2
  | .cls | .ldVxNn _ _ | .addVxNn _ _ | .ldINnn _ | .drwVxVyN _ _ _ | .ldVxK _ | .ldDtVx _ | .ldStVx _
  | .ldVxDt _ | .unknownOpcode _ => s.pc + 2

/-! ### The end of a run (`70_reset_and_hazards.md` R203) -/

/-- ENDED WELL: no fault, no wait, and the two bytes at pc encode `JP pc`. -/
abbrev State.EndedWell (s : State) : Prop :=
  s.running ∧ s.pc.toNat ≤ 0xFFE ∧ s.fetch = .ok (0x1000 + s.pc)

/-- ENDED BADLY: a fault is recorded. -/
abbrev State.EndedBadly (s : State) : Prop := s.fault ≠ none

/-- A safe state: nothing fatal has happened. -/
abbrev State.Safe (s : State) : Prop := s.fault = none

/-! ### What a draw shows (`43_display.md` R121, R122) -/

/-- The sprite bit that `DRW Vx, Vy, n` executed at `s` lays on the pixel (row, col). The start is x0 = V[x] mod 64 and
y0 = V[y] mod 32 (`43_display.md` R121, R122 (b)); sprite row r = row - y0 and column c = col - x0 show bit `7 - c` of the byte at
`I + r`, when r is one of the n rows and c one of the 8 columns, else 0. Pixels beyond row 31 and column 63 do not exist, which
is the clipping. Written out in numbers, without the operand forms that the meaning of `DRW` uses. -/
def drawnBit (s : State) (x y : VReg) (n : BitVec 4) (row : Fin Config.rows) (col : Fin Config.columns) : Bool :=
  decide ((s.readV y).toNat % 32 ≤ row.val ∧ row.val < (s.readV y).toNat % 32 + n.toNat ∧
      (s.readV x).toNat % 64 ≤ col.val ∧ col.val < (s.readV x).toNat % 64 + 8)
    && (s.mem.get (s.i.toNat + (row.val - (s.readV y).toNat % 32))).getLsbD (7 - (col.val - (s.readV x).toNat % 64))

/-- Every sprite row that is not clipped lies in memory, so the draw raises no fault. -/
def SpriteInMemory (s : State) (y : VReg) (n : BitVec 4) : Prop :=
  ∀ r, r < n.toNat → (s.readV y).toNat % 32 + r < 32 → s.i.toNat + r ≤ 0xFFF

end Sys2Proof.Machine
end

