-- ==== Sys2Proof/Certificates/Slice0/Obligations.lean ====
section
/-! DEFINITION. The statements for the provers, from the numbered rules of `spec/`, file by file. `exec i s` is step (6) of
a cycle: in it pc already stands at the next instruction, so "pc unchanged" is the spec's pc = a + 2. -/

open Sys2Proof Sys2Proof.Machine

/-! ### Encoding (`30_encoding.md`) -/

/-- Decode and encode agree, for every well-formed instruction and every operand, as words and as the two bytes in memory
(`30_encoding.md` R70, R72, R74). -/
def Obligations.DecodeOfEncodeIsTheInstruction : Prop :=
  ∀ i : Instr, i.wellFormed = true →
    decodeWord (encode i) = i ∧ ∀ rest, decodeBytes (encodeBytes i ++ rest) = .ok (i, rest)

/-- Every word is the encoding of exactly what it decodes to: no bit is dropped (`30_encoding.md` R76). That the words 0x0kE0 and
0x0kEE, k from 1 to 15, decode to the unknown class and not to `CLS` and `RET` is the spec's decision D11 (log entry 11). -/
def Obligations.EncodeOfDecodeIsTheWord : Prop :=
  ∀ w : Word, encode (decodeWord w) = w ∧ (decodeWord w).wellFormed = true

/-- The opcode map, row by row: an opcode is the instruction when `op & mask = match`, with the operands at their bits
(`30_encoding.md` R74). -/
def Obligations.OpcodeMapSelectsTheInstruction : Prop :=
  ∀ w : Word,
    (w &&& 0xFFFF = 0x00E0 → decodeWord w = .cls) ∧
    (w &&& 0xFFFF = 0x00EE → decodeWord w = .ret) ∧
    (w &&& 0xF000 = 0x1000 → decodeWord w = .jp (w.extractLsb' 0 12)) ∧
    (w &&& 0xF000 = 0x2000 → decodeWord w = .call (w.extractLsb' 0 12)) ∧
    (w &&& 0xF000 = 0x3000 → decodeWord w = .seVxNn (fieldX w) (w.extractLsb' 0 8)) ∧
    (w &&& 0xF000 = 0x6000 → decodeWord w = .ldVxNn (fieldX w) (w.extractLsb' 0 8)) ∧
    (w &&& 0xF000 = 0x7000 → decodeWord w = .addVxNn (fieldX w) (w.extractLsb' 0 8)) ∧
    (w &&& 0xF000 = 0xA000 → decodeWord w = .ldINnn (w.extractLsb' 0 12)) ∧
    (w &&& 0xF000 = 0xD000 → decodeWord w = .drwVxVyN (fieldX w) (fieldY w) (w.extractLsb' 0 4)) ∧
    (w &&& 0xF0FF = 0xE09E → decodeWord w = .skpVx (fieldX w)) ∧
    (w &&& 0xF0FF = 0xE0A1 → decodeWord w = .sknpVx (fieldX w)) ∧
    (w &&& 0xF0FF = 0xF00A → decodeWord w = .ldVxK (fieldX w)) ∧
    (w &&& 0xF0FF = 0xF015 → decodeWord w = .ldDtVx (fieldX w)) ∧
    (w &&& 0xF0FF = 0xF018 → decodeWord w = .ldStVx (fieldX w)) ∧
    (w &&& 0xF0FF = 0xF007 → decodeWord w = .ldVxDt (fieldX w))

/-- The 15 patterns are pairwise disjoint and decoding is total: a word is of the unknown class exactly when it matches none
of them (`30_encoding.md` R76, R77, which the spec derives from its opcode map). That `CLS` and `RET` match all 16 bits, which puts
the words 0x0kE0 and 0x0kEE into the unknown class, is the spec's decision D11 (log entry 11). -/
def Obligations.PatternsAreDisjointAndDecodingIsTotal : Prop :=
  ∀ w : Word,
    (∀ a ∈ opcodeRows, ∀ b ∈ opcodeRows, a.covers w = true → b.covers w = true → a = b) ∧
    ((∀ row ∈ opcodeRows, row.covers w = false) ↔ decodeWord w = .unknownOpcode w)

/-- The fields of an opcode (`30_encoding.md` R71): the word is top : x : y : n, and the overlapping fields are nnn = x : y : n
and nn = y : n. -/
def Obligations.FieldsOverlapAsNamed : Prop :=
  ∀ op : Word,
    op.toNat = (fieldTop op).toNat * 0x1000 + (fieldX op).val * 0x100 + (fieldY op).val * 0x10 + (fieldN op).toNat ∧
    (fieldNnn op).toNat = (fieldX op).val * 0x100 + (fieldY op).val * 0x10 + (fieldN op).toNat ∧
    (fieldNn op).toNat = (fieldY op).val * 0x10 + (fieldN op).toNat

/-- A few words of the spec's own decode table, written out (`95_test_vectors.md` Part 2). That 0x01E0 is unknown is the spec's
decision D11 on its conflict C1 (log entry 11); that 0xFFFF is unknown is `30_encoding.md` R77. -/
def Obligations.WrittenWordsDecode : Prop :=
  decodeWord 0x00E0 = .cls ∧ decodeWord 0x00EE = .ret ∧ decodeWord 0x1ABC = .jp 0xABC ∧
  decodeWord 0x3A12 = .seVxNn 10 0x12 ∧ decodeWord 0x7A12 = .addVxNn 10 0x12 ∧ decodeWord 0xAABC = .ldINnn 0xABC ∧
  decodeWord 0xDAB5 = .drwVxVyN 10 11 5 ∧ decodeWord 0xEAA1 = .sknpVx 10 ∧ decodeWord 0xFA18 = .ldStVx 10 ∧
  decodeWord 0x01E0 = .unknownOpcode 0x01E0 ∧ decodeWord 0xFFFF = .unknownOpcode 0xFFFF

/-! ### The cycle (`40_cycle.md`) -/

/-- `Cycle()` step by step (`40_cycle.md` R90): nothing in the faulted or the suspended state; a raise in the fetch ends it;
otherwise the instruction that the two bytes at pc decode to runs on the advanced pc, and both timers tick unless it raised a
fault. -/
def Obligations.StepRunsTheDecodedInstruction : Prop :=
  ∀ s : State,
    (s.fault ≠ none → step s = .next s) ∧
    (s.fault = none → s.waitingForKey = true → step s = .next s) ∧
    (∀ f, s.running → s.fetch = .error f → step s = .next { s with fault := some f }) ∧
    (∀ hi lo i, s.running → s.memRead s.pc.toNat = .ok hi → s.memRead (s.pc.toNat + 1) = .ok lo →
      decodeBytes [hi, lo] = .ok (i, []) → i.wellFormed = true →
      ∃ t, exec i { s with pc := s.pc + 2 } = .next t ∧
        step s = .next (if t.fault = none then
          { t with delayTimer := decrement t.delayTimer, soundTimer := decrement t.soundTimer } else t))

/-- The fetch (`40_cycle.md` R91): two bytes, the one at pc in bits 15 to 8; above 0xFFE it raises `MemoryBounds` with the
offending address and changes nothing but `fault`. That such a read raises this fault and does not wrap is the spec's decision
D6 (log entry 14). -/
def Obligations.FetchReadsBigEndianOrRaises : Prop :=
  ∀ s : State, s.running →
    (s.pc.toNat ≤ 0xFFE → ∃ hi lo op, s.memRead s.pc.toNat = .ok hi ∧ s.memRead (s.pc.toNat + 1) = .ok lo ∧
      s.fetch = .ok op ∧ op.toNat = hi.toNat * 256 + lo.toNat) ∧
    (s.pc.toNat = 0xFFF → ∃ t, step s = .next t ∧ t.fault = some (.memoryBounds 0x1000) ∧ SameExcept [.fault] s t) ∧
    (0xFFF < s.pc.toNat → ∃ t, step s = .next t ∧ t.fault = some (.memoryBounds s.pc.toNat) ∧ SameExcept [.fault] s t)

/-- The tick (`40_cycle.md` R96): once per executed cycle that does not fault, whatever the instruction, each timer falls by
1 and not below 0; a timer that the instruction writes falls from the written value. A suspended cycle, and one that faults,
moves neither timer. -/
def Obligations.EveryExecutedCycleTicksBothTimers : Prop :=
  (∀ (s t : State) (i : Instr), ExecutedCycle s t → s.current = some i →
    (∀ x, i = .ldDtVx x → t.delayTimer.toNat = (s.readV x).toNat - 1) ∧
    ((∀ x, i ≠ .ldDtVx x) → t.delayTimer.toNat = s.delayTimer.toNat - 1) ∧
    (∀ x, i = .ldStVx x → t.soundTimer.toNat = (s.readV x).toNat - 1) ∧
    ((∀ x, i ≠ .ldStVx x) → t.soundTimer.toNat = s.soundTimer.toNat - 1)) ∧
  (∀ s t : State, step s = .next t → s.waitingForKey = true ∨ t.fault ≠ none →
    t.delayTimer = s.delayTimer ∧ t.soundTimer = s.soundTimer)

/-- An unknown opcode (`40_cycle.md` R95): the instruction does nothing; its cycle advances pc by 2 and ticks. That the cycle
advances and ticks is the spec's decision D13 (log entry 12), and that the words 0x0kE0 and 0x0kEE are among the unknown opcodes
is its decision D11 (log entry 11). -/
def Obligations.UnknownOpcodeOnlyAdvancesAndTicks : Prop :=
  (∀ (w : Word) (s : State), ∃ t, exec (.unknownOpcode w) s = .next t ∧ SameExcept [] s t) ∧
  (∀ (s : State) (op : Word), s.running → s.fetch = .ok op → isKnownWord op = false →
    ∃ t, step s = .next t ∧ t.pc = s.pc + 2 ∧ t.delayTimer.toNat = s.delayTimer.toNat - 1 ∧
      t.soundTimer.toNat = s.soundTimer.toNat - 1 ∧ SameExcept [.pc, .delayTimer, .soundTimer] s t)

/-- How each instruction leaves pc (`10_state.md` R25, derived there): pc after every executed cycle that does not fault.
That an unknown opcode advances pc is the spec's decision D13 (log entry 12). -/
def Obligations.PcAfterAnExecutedCycle : Prop :=
  ∀ (s t : State) (i : Instr), ExecutedCycle s t → s.current = some i → t.pc = nextPc i s

/-! ### Control transfer (`41_flow.md`) -/

/-- `RET` (`41_flow.md` R100): pc becomes the popped entry; on an empty stack `StackUnderflow`, with nothing else changed. -/
def Obligations.RetPopsThePcOrUnderflows : Prop :=
  ∀ s : State,
    (∀ top rest, s.stack = top :: rest →
      ∃ t, exec .ret s = .next t ∧ t.pc = top ∧ t.stack = rest ∧ SameExcept [.pc, .stack] s t) ∧
    (s.stack = [] → ∃ t, exec .ret s = .next t ∧ t.fault = some .stackUnderflow ∧ SameExcept [.fault] s t)

/-- `StackUnderflow` seen from the whole cycle (`60_exceptions.md` R161): pc = a + 2, the stack still empty, no tick; and no
other instruction raises it. What the faulted state holds is the spec's decision D14 (`60_exceptions.md` R166, log entry 2),
and entry U13 asks claims about programs not to read it. -/
def Obligations.UnderflowingReturnEndsTheCycleUnticked : Prop :=
  (∀ s : State, s.running → s.fetch = .ok 0x00EE → s.stack = [] →
    ∃ t, step s = .next t ∧ t.fault = some .stackUnderflow ∧ t.pc = s.pc + 2 ∧ SameExcept [.pc, .fault] s t) ∧
  (∀ s t : State, s.fault = none → step s = .next t → t.fault = some .stackUnderflow →
    s.current = some .ret ∧ s.stack = [])

/-- `JP nnn` (`41_flow.md` R101): pc becomes nnn, nothing else changes. -/
def Obligations.JpSetsPc : Prop :=
  ∀ (nnn : BitVec 12) (s : State),
    ∃ t, exec (.jp nnn) s = .next t ∧ t.pc.toNat = nnn.toNat ∧ SameExcept [.pc] s t

/-- `CALL nnn` (`41_flow.md` R102): pushes the advanced pc, then pc becomes nnn. With a finite `STACK_DEPTH`, a full stack
raises `StackOverflow` instead, with nothing pushed and pc kept. -/
def Obligations.CallPushesThePcAndJumps : Prop :=
  (∀ (nnn : BitVec 12) (s : State), ∃ t, exec (.call nnn) s = .next t ∧ t.stack = s.pc :: s.stack ∧
    t.pc.toNat = nnn.toNat ∧ SameExcept [.pc, .stack] s t) ∧
  (∀ (nnn : BitVec 12) (s : State) (depth : Nat), s.stack.length < depth →
    callWith (some depth) nnn s = callWith none nnn s) ∧
  (∀ (nnn : BitVec 12) (s : State) (depth : Nat), depth ≤ s.stack.length →
    (callWith (some depth) nnn s).fault = some .stackOverflow ∧ SameExcept [.fault] s (callWith (some depth) nnn s))

/-- `SE Vx, nn` (`41_flow.md` R103): pc moves 2 further exactly when V[x] = nn; nothing else changes. -/
def Obligations.SeSkipsExactlyOnEquality : Prop :=
  ∀ (x : VReg) (nn : Byte) (s : State), ∃ t, exec (.seVxNn x nn) s = .next t ∧
    t.pc = (if (s.readV x).toNat = nn.toNat then s.pc + 2 else s.pc) ∧ SameExcept [.pc] s t

/-! ### Load and add (`42_load_add.md`) -/

/-- `LD Vx, nn` (`42_load_add.md` R110): V[x] becomes nn, for every x, VF included; no other register, no flag. -/
def Obligations.LdVxNnLoadsTheImmediate : Prop :=
  ∀ (x : VReg) (nn : Byte) (s : State), ∃ t, exec (.ldVxNn x nn) s = .next t ∧ t.readV x = nn ∧
    (∀ r, r ≠ x → t.readV r = s.readV r) ∧ SameExcept [.v] s t

/-- `ADD Vx, nn` (`42_load_add.md` R111): the unsigned sum modulo 256; the carry is discarded, and VF changes only as the
destination. -/
def Obligations.AddVxNnWrapsWithoutCarry : Prop :=
  ∀ (x : VReg) (nn : Byte) (s : State), ∃ t, exec (.addVxNn x nn) s = .next t ∧
    (t.readV x).toNat = ((s.readV x).toNat + nn.toNat) % 256 ∧ (∀ r, r ≠ x → t.readV r = s.readV r) ∧
    SameExcept [.v] s t

/-- `LD I, nnn` (`42_load_add.md` R112): I becomes nnn with its top four bits 0; no other instruction writes I. -/
def Obligations.LdILoadsTheAddress : Prop :=
  (∀ (nnn : BitVec 12) (s : State), ∃ t, exec (.ldINnn nnn) s = .next t ∧ t.i.toNat = nnn.toNat ∧ SameExcept [.i] s t) ∧
  (∀ (i : Instr) (s t : State), exec i s = .next t → t.i ≠ s.i → ∃ nnn, i = .ldINnn nnn)

/-! ### Display (`43_display.md`) -/

/-- `CLS` (`43_display.md` R120): every pixel becomes 0, VF and everything else stay. -/
def Obligations.ClsClearsEveryPixel : Prop :=
  ∀ s : State, ∃ t, exec .cls s = .next t ∧ (∀ p q, t.pixel p q = false) ∧ SameExcept [.fb] s t

/-- `DRW Vx, Vy, n` that raises no fault, as one formula (`43_display.md` R122 (b), (c) and (j), which the spec derives from the
loops of R121): with x0 = V[x] mod 64, y0 = V[y] mod 32 and column c showing bit 7 - c of its sprite byte, every pixel
is its old value XOR the sprite bit laid on it, VF is 1 when a laid bit met a lit pixel and 0
otherwise, and nothing else changes. The coordinates come from the old VF when x or y is 15 (the spec's decision D20, log
entry 17). -/
def Obligations.DrwXorsTheVisibleSpriteBits : Prop :=
  ∀ (x y : VReg) (n : BitVec 4) (s : State), SpriteInMemory s y n →
    ∃ t, exec (.drwVxVyN x y n) s = .next t ∧
      (∀ p q, t.pixel p q = (s.pixel p q ^^ drawnBit s x y n p q)) ∧
      ((∃ p q, drawnBit s x y n p q = true ∧ s.pixel p q = true) → t.readV vf = 1) ∧
      ((¬∃ p q, drawnBit s x y n p q = true ∧ s.pixel p q = true) → t.readV vf = 0) ∧
      (∀ r, r ≠ vf → t.readV r = s.readV r) ∧ SameExcept [.v, .fb] s t

/-- `DRW` whose row `f` is the first that is not clipped and lies above 0xFFF raises `MemoryBounds(I + f)`. Nothing is said of
the pixels and of VF: no claim may read that partial state (`60_exceptions.md` R162, R166, decisions D6 and D14; log entries 2
and 14). -/
def Obligations.DrwRaisesAtTheFirstRowOutsideMemory : Prop :=
  ∀ (x y : VReg) (n : BitVec 4) (f : Nat) (s : State), f < n.toNat → (s.readV y).toNat % 32 + f < 32 → 0xFFF < s.i.toNat + f →
    (∀ r, r < f → s.i.toNat + r ≤ 0xFFF) →
    ∃ t, exec (.drwVxVyN x y n) s = .next t ∧ t.fault = some (.memoryBounds (s.i.toNat + f)) ∧
      (∀ r, r ≠ vf → t.readV r = s.readV r) ∧ SameExcept [.v, .fb, .fault] s t

/-- The clipping property (`43_display.md` R123): with y0 = 30 and n = 4 only display rows 30 and 31 change, from `mem[I]` and
`mem[I + 1]`, the only bytes read; with x0 = 60 only display columns 60 to 63 change, from sprite bits 7 to 4. Here x0 = V[x]
mod 64 and y0 = V[y] mod 32; that they come from the old VF when x or y is 15 is the spec's decision D20 (log entry 17). -/
def Obligations.SpritesClipAtTheEdges : Prop :=
  (∀ (x y : VReg) (s : State), (s.readV y).toNat % 32 = 30 → s.i.toNat + 1 ≤ 0xFFF →
    ∃ t b0 b1, exec (.drwVxVyN x y 4) s = .next t ∧ t.fault = s.fault ∧
      s.memRead s.i.toNat = .ok b0 ∧ s.memRead (s.i.toNat + 1) = .ok b1 ∧
      (∀ p q, p.val < 30 → t.pixel p q = s.pixel p q) ∧
      (∀ q, t.pixel 30 q = (s.pixel 30 q ^^
        (decide ((s.readV x).toNat % 64 ≤ q.val ∧ q.val < (s.readV x).toNat % 64 + 8)
          && b0.getLsbD (7 - (q.val - (s.readV x).toNat % 64))))) ∧
      (∀ q, t.pixel 31 q = (s.pixel 31 q ^^
        (decide ((s.readV x).toNat % 64 ≤ q.val ∧ q.val < (s.readV x).toNat % 64 + 8)
          && b1.getLsbD (7 - (q.val - (s.readV x).toNat % 64)))))) ∧
  (∀ (x y : VReg) (n : BitVec 4) (s : State), (s.readV x).toNat % 64 = 60 → SpriteInMemory s y n →
    ∃ t, exec (.drwVxVyN x y n) s = .next t ∧
      (∀ p q, q.val < 60 → t.pixel p q = s.pixel p q) ∧
      (∀ r b p q, r < n.toNat → p.val = (s.readV y).toNat % 32 + r → s.memRead (s.i.toNat + r) = .ok b → 60 ≤ q.val →
        t.pixel p q = (s.pixel p q ^^ b.getLsbD (67 - q.val))))

/-- Drawing the same sprite twice (`43_display.md` R124, the spec's own correction of the source, conflict C9): every pixel is
restored; the first draw sets VF exactly when a laid bit met a lit pixel, the second exactly when a laid bit met an unlit
pixel in the first. Neither x nor y is 15, since the first draw writes VF. -/
def Obligations.DoubleDrawRestoresThePixels : Prop :=
  ∀ (x y : VReg) (n : BitVec 4) (s : State), x ≠ vf → y ≠ vf → SpriteInMemory s y n →
    ∃ t u, exec (.drwVxVyN x y n) s = .next t ∧ exec (.drwVxVyN x y n) t = .next u ∧
      (∀ p q, u.pixel p q = s.pixel p q) ∧
      (t.readV vf = 1 ↔ ∃ p q, drawnBit s x y n p q = true ∧ s.pixel p q = true) ∧
      (u.readV vf = 1 ↔ ∃ p q, drawnBit s x y n p q = true ∧ s.pixel p q = false) ∧
      (t.readV vf = 0 ∨ t.readV vf = 1) ∧ (u.readV vf = 0 ∨ u.readV vf = 1)

/-! ### Keypad (`44_keypad.md`) -/

/-- `SKP Vx` (`44_keypad.md` R130): for a key index at most 15, pc moves 2 further exactly when that key is held. For a larger
one `KeyIndex`, with nothing else changed: the spec's decision D7 (log entry 14). -/
def Obligations.SkpSkipsExactlyWhenHeld : Prop :=
  ∀ (x : VReg) (s : State),
    (∀ k : Key, (s.readV x).toNat = k.val → ∃ t, exec (.skpVx x) s = .next t ∧
      t.pc = (if s.keyHeld k = true then s.pc + 2 else s.pc) ∧ SameExcept [.pc] s t) ∧
    (15 < (s.readV x).toNat → ∃ t, exec (.skpVx x) s = .next t ∧ t.fault = some (.keyIndex (s.readV x)) ∧
      SameExcept [.fault] s t)

/-- `SKNP Vx` (`44_keypad.md` R131): for a key index at most 15, pc moves 2 further exactly when that key is not held. For a
larger one `KeyIndex`, with nothing else changed: the spec's decision D7 (log entry 14). -/
def Obligations.SknpSkipsExactlyWhenNotHeld : Prop :=
  ∀ (x : VReg) (s : State),
    (∀ k : Key, (s.readV x).toNat = k.val → ∃ t, exec (.sknpVx x) s = .next t ∧
      t.pc = (if s.keyHeld k = true then s.pc else s.pc + 2) ∧ SameExcept [.pc] s t) ∧
    (15 < (s.readV x).toNat → ∃ t, exec (.sknpVx x) s = .next t ∧ t.fault = some (.keyIndex (s.readV x)) ∧
      SameExcept [.fault] s t)

/-- `LD Vx, K` (`44_keypad.md` R132): the destination is recorded and the wait begins, whatever keys are held, and no V
register changes. Its own cycle advances pc and ticks: the spec's decision D12 (log entry 16). -/
def Obligations.LdVxKEntersTheWait : Prop :=
  (∀ (x : VReg) (s : State), ∃ t, exec (.ldVxK x) s = .next t ∧ t.waitingForKey = true ∧ t.keyRegister = x ∧
    SameExcept [.waitingForKey, .keyRegister] s t) ∧
  (∀ (x : VReg) (s : State), s.running → s.current = some (.ldVxK x) → ∃ t, step s = .next t ∧
    t.waitingForKey = true ∧ t.keyRegister = x ∧ t.pc = s.pc + 2 ∧ t.delayTimer.toNat = s.delayTimer.toNat - 1 ∧
    t.soundTimer.toNat = s.soundTimer.toNat - 1 ∧
    SameExcept [.waitingForKey, .keyRegister, .pc, .delayTimer, .soundTimer] s t)

/-- `InputRefresh(k)` (`44_keypad.md` R133), for every `KEY_ORDER`: all 16 key states are overwritten; outside a key-wait
nothing else changes, and in one only the wait and its destination register can. In the faulted state nothing changes: the
spec's decision D22. -/
def Obligations.InputRefreshOverwritesAllKeys : Prop :=
  ∀ (order : Equiv.Perm Key) (k : Vector Bool 16) (s : State),
    (s.fault ≠ none → inputRefreshWith order k s = s) ∧
    (s.fault = none → (∀ j : Key, (inputRefreshWith order k s).keyHeld j = k[j.val]) ∧
      SameExcept [.keys, .v, .waitingForKey] s (inputRefreshWith order k s) ∧
      (∀ r, r ≠ s.keyRegister → (inputRefreshWith order k s).readV r = s.readV r)) ∧
    (s.fault = none → s.waitingForKey = false → SameExcept [.keys] s (inputRefreshWith order k s))

/-- The resolution of a key-wait (`44_keypad.md` R134), for every `KEY_ORDER`: with a held key the wait ends, the held key that
the order visits first goes to `V[key_register]`, and the next cycle fetches; with none the wait stays and no V register is
written. `order.symm j` is the place of key `j` in the order. -/
def Obligations.HeldKeyResolvesTheWait : Prop :=
  ∀ (order : Equiv.Perm Key) (k : Vector Bool 16) (s : State), s.fault = none → s.waitingForKey = true →
    ((∃ j : Key, k[j.val] = true) → ∃ j : Key, k[j.val] = true ∧
      (∀ j' : Key, k[j'.val] = true → order.symm j ≤ order.symm j') ∧
      ((inputRefreshWith order k s).readV s.keyRegister).toNat = j.val ∧
      (∀ r, r ≠ s.keyRegister → (inputRefreshWith order k s).readV r = s.readV r) ∧
      (inputRefreshWith order k s).running ∧
      SameExcept [.keys, .v, .waitingForKey] s (inputRefreshWith order k s)) ∧
    ((∀ j : Key, k[j.val] = false) → (inputRefreshWith order k s).waitingForKey = true ∧
      SameExcept [.keys] s (inputRefreshWith order k s))

/-- With exactly one key held the winner does not depend on `KEY_ORDER` (`00_scope.md` R12, `44_keypad.md` R135). -/
def Obligations.SingleHeldKeyWinsInEveryOrder : Prop :=
  ∀ (order order' : Equiv.Perm Key) (k : Vector Bool 16) (j : Key) (s : State),
    k[j.val] = true → (∀ j' : Key, j' ≠ j → k[j'.val] = false) →
    inputRefreshWith order k s = inputRefreshWith order' k s ∧
    (s.fault = none → s.waitingForKey = true →
      (inputRefreshWith order k s).readV s.keyRegister = BitVec.ofNat 8 j.val)

/-- While in WAIT the whole state is frozen except `keys` (`44_keypad.md` R139): over any sequence of cycles and of refreshes
that show no held key, no instruction executes and nothing but `keys` changes. -/
def Obligations.WaitFreezesAllButTheKeys : Prop :=
  ∀ (events : List Event) (m : Session), m.core.fault = none → m.core.waitingForKey = true →
    (∀ e ∈ events, e = .cycle ∨ ∃ k : Vector Bool 16, e = .inputRefresh k ∧ ∀ j : Key, k[j.val] = false) →
    ∃ m', deliverAll events m = .next m' ∧ SameExcept [.keys] m.core m'.core

/-- The key-wait machine (`44_keypad.md` R136, derived there): the transitions of RUN and WAIT by `Cycle()` and
`InputRefresh`, and which of them faults. -/
def Obligations.KeyWaitMachineTransitions : Prop :=
  (∀ (s t : State) (i : Instr), ExecutedCycle s t → s.current = some i →
    (∀ x, i = .ldVxK x → t.waitingForKey = true ∧ t.keyRegister = x) ∧
    ((∀ x, i ≠ .ldVxK x) → t.waitingForKey = false ∧ t.keyRegister = s.keyRegister)) ∧
  (∀ s t : State, s.fault = none → s.waitingForKey = true → step s = .next t → t = s) ∧
  (∀ (k : Vector Bool 16) (s : State), s.running → (inputRefresh k s).running) ∧
  (∀ (k : Vector Bool 16) (s : State), s.fault = none → s.waitingForKey = true →
    ((inputRefresh k s).fault = none ∧ ((inputRefresh k s).waitingForKey = false ↔ ∃ j : Key, k[j.val] = true)))

/-! ### Timers (`45_timers.md`) -/

/-- `LD DT, Vx` (`45_timers.md` R145): delay_timer becomes V[x]; after the tick of the same cycle it is V[x] - 1, or 0. -/
def Obligations.LdDtVxWritesTheDelayTimer : Prop :=
  ∀ (x : VReg) (s : State), ∃ t, exec (.ldDtVx x) s = .next t ∧ t.delayTimer = s.readV x ∧
    SameExcept [.delayTimer] s t ∧
    (s.fault = none → t.endCycle.delayTimer.toNat = (s.readV x).toNat - 1 ∧
      t.endCycle.soundTimer.toNat = s.soundTimer.toNat - 1)

/-- `LD ST, Vx` (`45_timers.md` R146): sound_timer becomes V[x]; after the tick of the same cycle it is V[x] - 1, or 0, so
V[x] = 1 is never seen as an active sound line. -/
def Obligations.LdStVxWritesTheSoundTimer : Prop :=
  ∀ (x : VReg) (s : State), ∃ t, exec (.ldStVx x) s = .next t ∧ t.soundTimer = s.readV x ∧
    SameExcept [.soundTimer] s t ∧
    (s.fault = none → t.endCycle.soundTimer.toNat = (s.readV x).toNat - 1 ∧
      t.endCycle.delayTimer.toNat = s.delayTimer.toNat - 1 ∧
      (soundActive t.endCycle = true ↔ 1 < (s.readV x).toNat))

/-- `LD Vx, DT` (`45_timers.md` R147): V[x] becomes delay_timer as it was before this cycle's tick, which it does not stop. No
instruction reads sound_timer: with another value of it, each has the same effect on everything else. -/
def Obligations.LdVxDtReadsTheDelayTimer : Prop :=
  (∀ (x : VReg) (s : State), ∃ t, exec (.ldVxDt x) s = .next t ∧ t.readV x = s.delayTimer ∧
    (∀ r, r ≠ x → t.readV r = s.readV r) ∧ SameExcept [.v] s t ∧
    (s.fault = none → t.endCycle.readV x = s.delayTimer ∧ t.endCycle.delayTimer.toNat = s.delayTimer.toNat - 1)) ∧
  (∀ (i : Instr) (s t : State) (b : Byte), exec i s = .next t →
    ∃ t', exec i { s with soundTimer := b } = .next t' ∧ SameExcept [.soundTimer] t t')

/-- The countdown (`45_timers.md` R148, derived there): j executed cycles after the one that wrote V[x] to delay_timer, with no
other write to it, it holds max(V[x] - 1 - j, 0); suspended cycles and refreshes do not count. -/
def Obligations.DelayTimerCountsExecutedCycles : Prop :=
  ∀ (x : VReg) (j : Nat) (s u t : State), s.current = some (.ldDtVx x) → ExecutedCycle s u →
    TimerRun (fun i => ∃ y, i = .ldDtVx y) j u t → t.delayTimer.toNat = (s.readV x).toNat - 1 - j

/-- The sound line (`45_timers.md` R149, derived there): j executed cycles after the one that wrote V[x] to sound_timer, with no
other write to it, `SoundActive()` is true exactly while j + 1 < V[x]; it holds through a key-wait. -/
def Obligations.SoundLineLastsItsCount : Prop :=
  ∀ (x : VReg) (j : Nat) (s u t : State), s.current = some (.ldStVx x) → ExecutedCycle s u →
    TimerRun (fun i => ∃ y, i = .ldStVx y) j u t → (soundActive t = true ↔ j + 1 < (s.readV x).toNat)

/-- The program never sees sound_timer (`10_state.md` R28, R39 (c)): a step from a state that differs only in sound_timer
differs only in sound_timer. -/
def Obligations.SoundTimerIsInvisibleToTheProgram : Prop :=
  ∀ (s t : State) (b : Byte), step s = .next t →
    ∃ t', step { s with soundTimer := b } = .next t' ∧ SameExcept [.soundTimer] t t'

/-! ### Who writes what (`10_state.md` section 5) -/

/-- `Cycle()` never writes `mem` or `keys` and never ends a key-wait (`10_state.md` R34, `20_memory.md` R54), and never clears a
recorded fault (`10_state.md` R33, `40_cycle.md` R98: the spec's decision D14, log entry 1). -/
def Obligations.CycleNeverWritesMemoryOrKeys : Prop :=
  ∀ s t : State, step s = .next t →
    (∀ a, t.memRead a = s.memRead a) ∧ (∀ k, t.keyHeld k = s.keyHeld k) ∧
    (s.waitingForKey = true → t.waitingForKey = true) ∧ (∀ f, s.fault = some f → t.fault = some f)

/-- Each element of the state is written by the instructions the spec names for it and by no other (`10_state.md` R21 to R32,
`43_display.md` R121), and the fault record by the four that can raise a fault (`60_exceptions.md` R161 to R163: StackUnderflow,
and MemoryBounds and KeyIndex, the spec's decisions D6 and D7, log entry 14): the frame of every instruction. -/
def Obligations.OnlyTheNamedInstructionsWrite : Prop :=
  ∀ (i : Instr) (s t : State), exec i s = .next t →
    (∀ r, t.readV r ≠ s.readV r → (∃ nn, i = .ldVxNn r nn) ∨ (∃ nn, i = .addVxNn r nn) ∨ i = .ldVxDt r ∨
      (r = vf ∧ ∃ x y n, i = .drwVxVyN x y n)) ∧
    (t.i ≠ s.i → ∃ nnn, i = .ldINnn nnn) ∧
    (t.pc ≠ s.pc → i = .ret ∨ (∃ nnn, i = .jp nnn) ∨ (∃ nnn, i = .call nnn) ∨ (∃ x nn, i = .seVxNn x nn) ∨
      (∃ x, i = .skpVx x) ∨ ∃ x, i = .sknpVx x) ∧
    (t.stack ≠ s.stack → i = .ret ∨ ∃ nnn, i = .call nnn) ∧
    (t.delayTimer ≠ s.delayTimer → ∃ x, i = .ldDtVx x) ∧
    (t.soundTimer ≠ s.soundTimer → ∃ x, i = .ldStVx x) ∧
    (∀ a, t.memRead a = s.memRead a) ∧
    (∀ p q, t.pixel p q ≠ s.pixel p q → i = .cls ∨ ∃ x y n, i = .drwVxVyN x y n) ∧
    (∀ k, t.keyHeld k = s.keyHeld k) ∧
    (t.waitingForKey ≠ s.waitingForKey ∨ t.keyRegister ≠ s.keyRegister → ∃ x, i = .ldVxK x) ∧
    (t.fault ≠ s.fault → i = .ret ∨ (∃ x y n, i = .drwVxVyN x y n) ∨ (∃ x, i = .skpVx x) ∨ ∃ x, i = .sknpVx x)

/-- Memory is fixed once the engine runs (`20_memory.md` R62, and R65, derived there from R54 and R62): after the first `Cycle()`
no event but `Reset()` changes a byte. That a `LoadROM` is then refused is R62, the spec's decision D17 (log entry 9). -/
def Obligations.MemoryIsFixedOnceRunning : Prop :=
  (∀ (e : Event) (m m' : Session), m.started = true → e ≠ .reset → deliver e m = .next m' →
    m'.started = true ∧ ∀ a, m'.core.memRead a = m.core.memRead a) ∧
  (∀ (bytes : List Byte) (m : Session), m.started = true → m.core.fault = none →
    deliver (.loadRom bytes) m = .refused .loadAfterFirstCycle)

/-! ### Faults (`60_exceptions.md`) -/

/-- Each instruction raises at most its own kind of fault, with the recorded value the spec gives (`60_exceptions.md` R160 to
R165, R168; the kinds MemoryBounds and KeyIndex are the spec's decisions D6 and D7, log entry 14). -/
def Obligations.EachInstructionRaisesOnlyItsOwnFault : Prop :=
  ∀ (i : Instr) (s t : State) (f : Fault), s.fault = none → exec i s = .next t → t.fault = some f →
    (f = .stackUnderflow ∧ i = .ret ∧ s.stack = []) ∨
    (∃ a x y n, f = .memoryBounds a ∧ i = .drwVxVyN x y n ∧ 0xFFF < a ∧ s.i.toNat ≤ a ∧ a < s.i.toNat + n.toNat ∧
      ∀ b, s.i.toNat ≤ b → b < a → b ≤ 0xFFF) ∨
    (∃ v x, f = .keyIndex v ∧ (i = .skpVx x ∨ i = .sknpVx x) ∧ v = s.readV x ∧ 15 < v.toNat)

/-- The faulted state is absorbing (`60_exceptions.md` R167, the spec's decision D14, log entry 1): no sequence of events
without a `Reset()` changes anything in it, and `Reset()` leaves it. -/
def Obligations.FaultedStateIsAbsorbing : Prop :=
  (∀ (events : List Event) (m : Session), m.core.fault ≠ none → (∀ e ∈ events, e ≠ .reset) →
    ∃ m', deliverAll events m = .next m' ∧ m'.core = m.core) ∧
  (∀ m : Session, deliver .reset m = .next ⟨State.reset, false⟩)

/-! ### Memory, ROM load and reset (`20_memory.md`, `10_state.md`, `70_reset_and_hazards.md`) -/

/-- `LoadROM(bytes)` (`20_memory.md` R60): the bytes go to 0x200 on, every other byte keeps its value, nothing else changes. -/
def Obligations.LoadRomCopiesFromTheProgramStart : Prop :=
  ∀ (bytes : List Byte) (s : State), bytes.length ≤ 3584 → s.fault = none → s.mem.wf →
    ∃ t, loadRom bytes s = .ok t ∧
      (∀ (j : Nat) (h : j < bytes.length), t.memRead (0x200 + j) = .ok bytes[j]) ∧
      (∀ a, a < 0x200 ∨ 0x200 + bytes.length ≤ a → t.memRead a = s.memRead a) ∧ SameExcept [.mem] s t

/-- `LoadROM` of more than 3584 bytes fails with `LoadError` and stores nothing, and the engine does not stop
(`20_memory.md` R61, `60_exceptions.md` R179, the spec's decision D17). That the error is answered in the faulted state too is
the model's own choice: the spec leaves open whether the length or the fault record is looked at first (log entry 9). -/
def Obligations.OversizedRomIsRefusedWhole : Prop :=
  ∀ (bytes : List Byte) (m : Session), 3584 < bytes.length →
    loadRom bytes m.core = .error .romTooLong ∧
    (m.started = false → deliver (.loadRom bytes) m = .next m)

/-- The state after `Reset()` (`10_state.md` R36; the values are the spec's decisions D2, D3, D4, and FONT is its open parameter:
log entries 3 and 4). -/
def Obligations.ResetLeavesTheStatedValues : Prop :=
  (∀ (a : Nat) (h : a < 80), State.reset.memRead a = .ok Config.font[a]) ∧
  (∀ a, 0x50 ≤ a → a ≤ 0xFFF → State.reset.memRead a = .ok 0) ∧
  (∀ r, State.reset.readV r = 0) ∧ State.reset.i = 0 ∧ State.reset.pc = 0x200 ∧ State.reset.stack = [] ∧
  State.reset.delayTimer = 0 ∧ State.reset.soundTimer = 0 ∧ (∀ p q, State.reset.pixel p q = false) ∧
  (∀ k, State.reset.keyHeld k = false) ∧ State.reset.waitingForKey = false ∧ State.reset.keyRegister = 0 ∧
  State.reset.fault = none ∧ ∀ m, deliver .reset m = .next ⟨State.reset, false⟩

/-- With no ROM loaded the engine runs 1792 unknown opcodes and then faults in the fetch (`70_reset_and_hazards.md` R191,
derived there). It rests on the zero fill of memory, on the advance past an unknown opcode and on the fault of a read above
0xFFF, the spec's decisions D4, D13 and D6 (log entries 3, 12 and 14). -/
def Obligations.UnloadedMemoryRunsToTheBoundsFault : Prop :=
  (∀ j, j ≤ 1792 → Sys2Proof.core.run j State.reset = .next { State.reset with pc := BitVec.ofNat 16 (0x200 + 2 * j) }) ∧
  Sys2Proof.core.run 1793 State.reset =
    .next { State.reset with pc := 0x1000, fault := some (.memoryBounds 0x1000) }

/-- A run that has ENDED WELL stays so (`70_reset_and_hazards.md` R203, the spec's decision D24): every further `Cycle()` leaves
everything unchanged except that the timers count down to 0. -/
def Obligations.EndedWellStaysEndedWell : Prop :=
  ∀ s : State, s.EndedWell → ∃ t, step s = .next t ∧ t.EndedWell ∧ t.delayTimer.toNat = s.delayTimer.toNat - 1 ∧
    t.soundTimer.toNat = s.soundTimer.toNat - 1 ∧ SameExcept [.delayTimer, .soundTimer] s t

/-! ### Invariants (`10_state.md` R37) -/

/-- The invariant (`10_state.md` R37) holds right after `Reset()`, whose values (R36) are the spec's decisions D2, D3 and D4 (log
entry 3). -/
def Obligations.InvariantHoldsAtReset : Prop := State.reset.Inv

/-- Every step keeps the invariant (`10_state.md` R37 (a) to (c), derived there): I at most 0x0FFF, pc at most 0x1002, every
return address at most 0x1000, memory in canonical form, and a recorded fault one that can arise (an address from 0x1000 to
0x1002, a key index above 15, never `StackOverflow`). -/
def Obligations.EveryStepKeepsTheInvariant : Prop :=
  ∀ s t : State, s.Inv → step s = .next t → t.Inv

/-- The host's other events keep the invariant too, for every `KEY_ORDER`. -/
def Obligations.RefreshAndLoadKeepTheInvariant : Prop :=
  (∀ (order : Equiv.Perm Key) (k : Vector Bool 16) (s : State), s.Inv → (inputRefreshWith order k s).Inv) ∧
  (∀ (bytes : List Byte) (s t : State), s.Inv → loadRom bytes s = .ok t → t.Inv)

/-- Every session that any sequence of the four events reaches from `Reset()` meets the invariant (`10_state.md` R37, derived
there). It rests on the reset values of R36, the spec's decisions D2, D3 and D4 (log entry 3). -/
def Obligations.EveryReachableSessionMeetsTheInvariant : Prop :=
  ∀ m : Session, Reachable m → m.core.Inv
end

