-- ==== Sys2Proof/Laws/Decode.lean ====
section
/-! SUPPORT. The fields of each encoding format, and the two bytes of a word: what a decoder reads back. -/

namespace Sys2Proof

/-! ### Fields as numbers -/

theorem fieldTop_toNat (w : Word) : (fieldTop w).toNat = w.toNat / 0x1000 := by
  have := w.isLt
  simp [fieldTop, Nat.shiftRight_eq_div_pow]; omega

theorem fieldX_val (w : Word) : (fieldX w).val = w.toNat / 0x100 % 0x10 := by
  simp [fieldX, Nat.shiftRight_eq_div_pow]

theorem fieldY_val (w : Word) : (fieldY w).val = w.toNat / 0x10 % 0x10 := by
  simp [fieldY, Nat.shiftRight_eq_div_pow]

theorem fieldN_toNat (w : Word) : (fieldN w).toNat = w.toNat % 0x10 := by simp [fieldN]

theorem fieldNn_toNat (w : Word) : (fieldNn w).toNat = w.toNat % 0x100 := by simp [fieldNn]

theorem fieldNnn_toNat (w : Word) : (fieldNnn w).toNat = w.toNat % 0x1000 := by simp [fieldNnn]

/-! ### The masks of the opcode map as numbers -/

/-- The mask 0xF000 keeps the top nibble. -/
theorem and_F000_toNat (w : Word) : (w &&& 0xF000).toNat = w.toNat / 0x1000 * 0x1000 := by
  have hw := w.isLt
  change w.toNat &&& 0xF000 = _
  apply Nat.eq_of_testBit_eq
  intro i
  rw [Nat.testBit_and, show (0x1000 : Nat) = 2 ^ 12 from rfl, Nat.testBit_mul_two_pow, Nat.testBit_div_two_pow]
  by_cases hi : i < 16
  · interval_cases i <;> simp <;> intro _ <;> decide
  · have : w.toNat.testBit i = false :=
      Nat.testBit_lt_two_pow (Nat.lt_of_lt_of_le hw (Nat.pow_le_pow_right (by decide) (by omega)))
    simp [this, show 12 ≤ i by omega]

/-- The mask 0xF0FF keeps the top nibble and the low byte. -/
theorem and_F0FF_toNat (w : Word) : (w &&& 0xF0FF).toNat = w.toNat / 0x1000 * 0x1000 + w.toNat % 0x100 := by
  have h : (w &&& 0xF0FF).toNat = w.toNat &&& (0xF000 ||| 0xFF) := rfl
  have h1 : w.toNat &&& 0xF000 = w.toNat / 0x1000 * 0x1000 := and_F000_toNat w
  have h2 : w.toNat &&& 0xFF = w.toNat % 0x100 := Nat.and_two_pow_sub_one_eq_mod w.toNat 8
  have h3 : w.toNat % 0x100 < 2 ^ 12 := by omega
  rw [h, Nat.and_or_distrib_left, h1, h2, show w.toNat / 0x1000 * 0x1000 = (w.toNat / 0x1000) <<< 12 by
    rw [Nat.shiftLeft_eq], Nat.shiftLeft_add_eq_or_of_lt h3]

/-- The mask 0xFFFF keeps the word. -/
theorem and_FFFF (w : Word) : w &&& 0xFFFF = w := BitVec.and_allOnes

/-! ### The formats as numbers -/

theorem encodeNnn_toNat {g : Nat} (hg : g < 16) (nnn : BitVec 12) :
    (encodeNnn g nnn).toNat = g * 0x1000 + nnn.toNat := by
  have := nnn.isLt
  simp only [encodeNnn, BitVec.toNat_ofNat]; omega

theorem encodeXnn_toNat {g : Nat} (hg : g < 16) (x : VReg) (nn : Byte) :
    (encodeXnn g x nn).toNat = g * 0x1000 + x.val * 0x100 + nn.toNat := by
  have := nn.isLt
  have := x.isLt
  simp only [encodeXnn, BitVec.toNat_ofNat]; omega

theorem encodeXyn_toNat {g : Nat} (hg : g < 16) (x y : VReg) (n : BitVec 4) :
    (encodeXyn g x y n).toNat = g * 0x1000 + x.val * 0x100 + y.val * 0x10 + n.toNat := by
  have := n.isLt
  have := x.isLt
  have := y.isLt
  simp only [encodeXyn, BitVec.toNat_ofNat]; omega

/-! ### Reading a format's fields back -/

theorem fieldTop_encodeNnn {g : Nat} (hg : g < 16) (nnn : BitVec 12) : (fieldTop (encodeNnn g nnn)).toNat = g := by
  have := nnn.isLt
  rw [fieldTop_toNat, encodeNnn_toNat hg]; omega

theorem fieldNnn_encodeNnn {g : Nat} (hg : g < 16) (nnn : BitVec 12) : fieldNnn (encodeNnn g nnn) = nnn := by
  have := nnn.isLt
  apply BitVec.eq_of_toNat_eq
  rw [fieldNnn_toNat, encodeNnn_toNat hg]; omega

theorem fieldTop_encodeXnn {g : Nat} (hg : g < 16) (x : VReg) (nn : Byte) :
    (fieldTop (encodeXnn g x nn)).toNat = g := by
  have := nn.isLt
  have := x.isLt
  rw [fieldTop_toNat, encodeXnn_toNat hg]; omega

theorem fieldX_encodeXnn {g : Nat} (hg : g < 16) (x : VReg) (nn : Byte) : fieldX (encodeXnn g x nn) = x := by
  have := nn.isLt
  have := x.isLt
  apply Fin.ext
  rw [fieldX_val, encodeXnn_toNat hg]; omega

theorem fieldNn_encodeXnn {g : Nat} (hg : g < 16) (x : VReg) (nn : Byte) : fieldNn (encodeXnn g x nn) = nn := by
  have := nn.isLt
  have := x.isLt
  apply BitVec.eq_of_toNat_eq
  rw [fieldNn_toNat, encodeXnn_toNat hg]; omega

theorem fieldTop_encodeXyn {g : Nat} (hg : g < 16) (x y : VReg) (n : BitVec 4) :
    (fieldTop (encodeXyn g x y n)).toNat = g := by
  have := n.isLt
  have := x.isLt
  have := y.isLt
  rw [fieldTop_toNat, encodeXyn_toNat hg]; omega

theorem fieldX_encodeXyn {g : Nat} (hg : g < 16) (x y : VReg) (n : BitVec 4) : fieldX (encodeXyn g x y n) = x := by
  have := n.isLt
  have := x.isLt
  have := y.isLt
  apply Fin.ext
  rw [fieldX_val, encodeXyn_toNat hg]; omega

theorem fieldY_encodeXyn {g : Nat} (hg : g < 16) (x y : VReg) (n : BitVec 4) : fieldY (encodeXyn g x y n) = y := by
  have := n.isLt
  have := x.isLt
  have := y.isLt
  apply Fin.ext
  rw [fieldY_val, encodeXyn_toNat hg]; omega

theorem fieldN_encodeXyn {g : Nat} (hg : g < 16) (x y : VReg) (n : BitVec 4) : fieldN (encodeXyn g x y n) = n := by
  have := n.isLt
  have := x.isLt
  have := y.isLt
  apply BitVec.eq_of_toNat_eq
  rw [fieldN_toNat, encodeXyn_toNat hg]; omega

/-! ### Bytes -/

@[simp] theorem wordOfBytes_bytes (w : Word) : wordOfBytes (highByte w) (lowByte w) = w := by
  have h : highByte w ++ lowByte w = w.extractLsb' 0 16 :=
    BitVec.extractLsb'_append_extractLsb'_eq_extractLsb' (by rfl)
  simpa [wordOfBytes] using h

/-- The bytes of a word are the ones it is made of (`20_memory.md` R53: the lower address holds bits 15 to 8). -/
theorem wordOfBytes_toNat (hi lo : Byte) : (wordOfBytes hi lo).toNat = hi.toNat * 256 + lo.toNat := by
  have := lo.isLt
  have h : (hi ++ lo).toNat = hi.toNat <<< 8 ||| lo.toNat := BitVec.toNat_append hi lo
  rw [wordOfBytes, h, ← Nat.shiftLeft_add_eq_or_of_lt lo.isLt, Nat.shiftLeft_eq]

/-- All that `decodeBytes` can answer. -/
theorem decodeBytes_cases (bytes : List Byte) :
    (∃ hi lo rest, bytes = hi :: lo :: rest ∧ decodeBytes bytes = .ok (decodeWord (wordOfBytes hi lo), rest)) ∨
    (bytes.length < 2 ∧ decodeBytes bytes = .error .tooFewBytes) := by
  match bytes with
  | hi :: lo :: rest => exact .inl ⟨hi, lo, rest, rfl, rfl⟩
  | [_] => exact .inr ⟨by simp, rfl⟩
  | [] => exact .inr ⟨by simp, rfl⟩

theorem decodeTableWord_eq (nbits w : Nat) : decodeTableWord nbits w = some (decodeWord (tableWord nbits w)) := by
  simp [decodeTableWord, decodeBytes]

end Sys2Proof
end

