-- ==== Sys2Proof/Laws/State.lean ====
section
/-! SUPPORT. One lemma per field per update of the state, each true by `rfl`, and what the accessors read after an
update. Later proofs use these and unfold no record update. -/

namespace Sys2Proof.Machine

/-! ### `State.writeV` -/

@[simp] theorem State.writeV_v (s : State) (r : VReg) (b : Byte) : (s.writeV r b).v = s.v.set r.val b := rfl
@[simp] theorem State.writeV_i (s : State) (r : VReg) (b : Byte) : (s.writeV r b).i = s.i := rfl
@[simp] theorem State.writeV_pc (s : State) (r : VReg) (b : Byte) : (s.writeV r b).pc = s.pc := rfl
@[simp] theorem State.writeV_stack (s : State) (r : VReg) (b : Byte) : (s.writeV r b).stack = s.stack := rfl
@[simp] theorem State.writeV_delayTimer (s : State) (r : VReg) (b : Byte) : (s.writeV r b).delayTimer = s.delayTimer := rfl
@[simp] theorem State.writeV_soundTimer (s : State) (r : VReg) (b : Byte) : (s.writeV r b).soundTimer = s.soundTimer := rfl
@[simp] theorem State.writeV_mem (s : State) (r : VReg) (b : Byte) : (s.writeV r b).mem = s.mem := rfl
@[simp] theorem State.writeV_fb (s : State) (r : VReg) (b : Byte) : (s.writeV r b).fb = s.fb := rfl
@[simp] theorem State.writeV_keys (s : State) (r : VReg) (b : Byte) : (s.writeV r b).keys = s.keys := rfl
@[simp] theorem State.writeV_waitingForKey (s : State) (r : VReg) (b : Byte) : (s.writeV r b).waitingForKey = s.waitingForKey := rfl
@[simp] theorem State.writeV_keyRegister (s : State) (r : VReg) (b : Byte) : (s.writeV r b).keyRegister = s.keyRegister := rfl
@[simp] theorem State.writeV_fault (s : State) (r : VReg) (b : Byte) : (s.writeV r b).fault = s.fault := rfl

/-! ### `State.setI` -/

@[simp] theorem State.setI_v (s : State) (a : Word) : (s.setI a).v = s.v := rfl
@[simp] theorem State.setI_i (s : State) (a : Word) : (s.setI a).i = a := rfl
@[simp] theorem State.setI_pc (s : State) (a : Word) : (s.setI a).pc = s.pc := rfl
@[simp] theorem State.setI_stack (s : State) (a : Word) : (s.setI a).stack = s.stack := rfl
@[simp] theorem State.setI_delayTimer (s : State) (a : Word) : (s.setI a).delayTimer = s.delayTimer := rfl
@[simp] theorem State.setI_soundTimer (s : State) (a : Word) : (s.setI a).soundTimer = s.soundTimer := rfl
@[simp] theorem State.setI_mem (s : State) (a : Word) : (s.setI a).mem = s.mem := rfl
@[simp] theorem State.setI_fb (s : State) (a : Word) : (s.setI a).fb = s.fb := rfl
@[simp] theorem State.setI_keys (s : State) (a : Word) : (s.setI a).keys = s.keys := rfl
@[simp] theorem State.setI_waitingForKey (s : State) (a : Word) : (s.setI a).waitingForKey = s.waitingForKey := rfl
@[simp] theorem State.setI_keyRegister (s : State) (a : Word) : (s.setI a).keyRegister = s.keyRegister := rfl
@[simp] theorem State.setI_fault (s : State) (a : Word) : (s.setI a).fault = s.fault := rfl

/-! ### `State.setPc` -/

@[simp] theorem State.setPc_v (s : State) (a : Word) : (s.setPc a).v = s.v := rfl
@[simp] theorem State.setPc_i (s : State) (a : Word) : (s.setPc a).i = s.i := rfl
@[simp] theorem State.setPc_pc (s : State) (a : Word) : (s.setPc a).pc = a := rfl
@[simp] theorem State.setPc_stack (s : State) (a : Word) : (s.setPc a).stack = s.stack := rfl
@[simp] theorem State.setPc_delayTimer (s : State) (a : Word) : (s.setPc a).delayTimer = s.delayTimer := rfl
@[simp] theorem State.setPc_soundTimer (s : State) (a : Word) : (s.setPc a).soundTimer = s.soundTimer := rfl
@[simp] theorem State.setPc_mem (s : State) (a : Word) : (s.setPc a).mem = s.mem := rfl
@[simp] theorem State.setPc_fb (s : State) (a : Word) : (s.setPc a).fb = s.fb := rfl
@[simp] theorem State.setPc_keys (s : State) (a : Word) : (s.setPc a).keys = s.keys := rfl
@[simp] theorem State.setPc_waitingForKey (s : State) (a : Word) : (s.setPc a).waitingForKey = s.waitingForKey := rfl
@[simp] theorem State.setPc_keyRegister (s : State) (a : Word) : (s.setPc a).keyRegister = s.keyRegister := rfl
@[simp] theorem State.setPc_fault (s : State) (a : Word) : (s.setPc a).fault = s.fault := rfl

/-! ### `State.advancePc` -/

@[simp] theorem State.advancePc_v (s : State) : s.advancePc.v = s.v := rfl
@[simp] theorem State.advancePc_i (s : State) : s.advancePc.i = s.i := rfl
@[simp] theorem State.advancePc_pc (s : State) : s.advancePc.pc = s.pc + 2 := rfl
@[simp] theorem State.advancePc_stack (s : State) : s.advancePc.stack = s.stack := rfl
@[simp] theorem State.advancePc_delayTimer (s : State) : s.advancePc.delayTimer = s.delayTimer := rfl
@[simp] theorem State.advancePc_soundTimer (s : State) : s.advancePc.soundTimer = s.soundTimer := rfl
@[simp] theorem State.advancePc_mem (s : State) : s.advancePc.mem = s.mem := rfl
@[simp] theorem State.advancePc_fb (s : State) : s.advancePc.fb = s.fb := rfl
@[simp] theorem State.advancePc_keys (s : State) : s.advancePc.keys = s.keys := rfl
@[simp] theorem State.advancePc_waitingForKey (s : State) : s.advancePc.waitingForKey = s.waitingForKey := rfl
@[simp] theorem State.advancePc_keyRegister (s : State) : s.advancePc.keyRegister = s.keyRegister := rfl
@[simp] theorem State.advancePc_fault (s : State) : s.advancePc.fault = s.fault := rfl

/-! ### `State.skipNext` -/

@[simp] theorem State.skipNext_v (s : State) : s.skipNext.v = s.v := rfl
@[simp] theorem State.skipNext_i (s : State) : s.skipNext.i = s.i := rfl
@[simp] theorem State.skipNext_pc (s : State) : s.skipNext.pc = s.pc + 2 := rfl
@[simp] theorem State.skipNext_stack (s : State) : s.skipNext.stack = s.stack := rfl
@[simp] theorem State.skipNext_delayTimer (s : State) : s.skipNext.delayTimer = s.delayTimer := rfl
@[simp] theorem State.skipNext_soundTimer (s : State) : s.skipNext.soundTimer = s.soundTimer := rfl
@[simp] theorem State.skipNext_mem (s : State) : s.skipNext.mem = s.mem := rfl
@[simp] theorem State.skipNext_fb (s : State) : s.skipNext.fb = s.fb := rfl
@[simp] theorem State.skipNext_keys (s : State) : s.skipNext.keys = s.keys := rfl
@[simp] theorem State.skipNext_waitingForKey (s : State) : s.skipNext.waitingForKey = s.waitingForKey := rfl
@[simp] theorem State.skipNext_keyRegister (s : State) : s.skipNext.keyRegister = s.keyRegister := rfl
@[simp] theorem State.skipNext_fault (s : State) : s.skipNext.fault = s.fault := rfl

/-! ### `State.setDelay` -/

@[simp] theorem State.setDelay_v (s : State) (b : Byte) : (s.setDelay b).v = s.v := rfl
@[simp] theorem State.setDelay_i (s : State) (b : Byte) : (s.setDelay b).i = s.i := rfl
@[simp] theorem State.setDelay_pc (s : State) (b : Byte) : (s.setDelay b).pc = s.pc := rfl
@[simp] theorem State.setDelay_stack (s : State) (b : Byte) : (s.setDelay b).stack = s.stack := rfl
@[simp] theorem State.setDelay_delayTimer (s : State) (b : Byte) : (s.setDelay b).delayTimer = b := rfl
@[simp] theorem State.setDelay_soundTimer (s : State) (b : Byte) : (s.setDelay b).soundTimer = s.soundTimer := rfl
@[simp] theorem State.setDelay_mem (s : State) (b : Byte) : (s.setDelay b).mem = s.mem := rfl
@[simp] theorem State.setDelay_fb (s : State) (b : Byte) : (s.setDelay b).fb = s.fb := rfl
@[simp] theorem State.setDelay_keys (s : State) (b : Byte) : (s.setDelay b).keys = s.keys := rfl
@[simp] theorem State.setDelay_waitingForKey (s : State) (b : Byte) : (s.setDelay b).waitingForKey = s.waitingForKey := rfl
@[simp] theorem State.setDelay_keyRegister (s : State) (b : Byte) : (s.setDelay b).keyRegister = s.keyRegister := rfl
@[simp] theorem State.setDelay_fault (s : State) (b : Byte) : (s.setDelay b).fault = s.fault := rfl

/-! ### `State.setSound` -/

@[simp] theorem State.setSound_v (s : State) (b : Byte) : (s.setSound b).v = s.v := rfl
@[simp] theorem State.setSound_i (s : State) (b : Byte) : (s.setSound b).i = s.i := rfl
@[simp] theorem State.setSound_pc (s : State) (b : Byte) : (s.setSound b).pc = s.pc := rfl
@[simp] theorem State.setSound_stack (s : State) (b : Byte) : (s.setSound b).stack = s.stack := rfl
@[simp] theorem State.setSound_delayTimer (s : State) (b : Byte) : (s.setSound b).delayTimer = s.delayTimer := rfl
@[simp] theorem State.setSound_soundTimer (s : State) (b : Byte) : (s.setSound b).soundTimer = b := rfl
@[simp] theorem State.setSound_mem (s : State) (b : Byte) : (s.setSound b).mem = s.mem := rfl
@[simp] theorem State.setSound_fb (s : State) (b : Byte) : (s.setSound b).fb = s.fb := rfl
@[simp] theorem State.setSound_keys (s : State) (b : Byte) : (s.setSound b).keys = s.keys := rfl
@[simp] theorem State.setSound_waitingForKey (s : State) (b : Byte) : (s.setSound b).waitingForKey = s.waitingForKey := rfl
@[simp] theorem State.setSound_keyRegister (s : State) (b : Byte) : (s.setSound b).keyRegister = s.keyRegister := rfl
@[simp] theorem State.setSound_fault (s : State) (b : Byte) : (s.setSound b).fault = s.fault := rfl

/-! ### `State.tick` -/

@[simp] theorem State.tick_v (s : State) : s.tick.v = s.v := rfl
@[simp] theorem State.tick_i (s : State) : s.tick.i = s.i := rfl
@[simp] theorem State.tick_pc (s : State) : s.tick.pc = s.pc := rfl
@[simp] theorem State.tick_stack (s : State) : s.tick.stack = s.stack := rfl
@[simp] theorem State.tick_delayTimer (s : State) : s.tick.delayTimer = decrement s.delayTimer := rfl
@[simp] theorem State.tick_soundTimer (s : State) : s.tick.soundTimer = decrement s.soundTimer := rfl
@[simp] theorem State.tick_mem (s : State) : s.tick.mem = s.mem := rfl
@[simp] theorem State.tick_fb (s : State) : s.tick.fb = s.fb := rfl
@[simp] theorem State.tick_keys (s : State) : s.tick.keys = s.keys := rfl
@[simp] theorem State.tick_waitingForKey (s : State) : s.tick.waitingForKey = s.waitingForKey := rfl
@[simp] theorem State.tick_keyRegister (s : State) : s.tick.keyRegister = s.keyRegister := rfl
@[simp] theorem State.tick_fault (s : State) : s.tick.fault = s.fault := rfl

/-! ### `State.flipPixel` -/

@[simp] theorem State.flipPixel_v (s : State) (r : Fin Config.rows) (c : Fin Config.columns) : (s.flipPixel r c).v = s.v := rfl
@[simp] theorem State.flipPixel_i (s : State) (r : Fin Config.rows) (c : Fin Config.columns) : (s.flipPixel r c).i = s.i := rfl
@[simp] theorem State.flipPixel_pc (s : State) (r : Fin Config.rows) (c : Fin Config.columns) : (s.flipPixel r c).pc = s.pc := rfl
@[simp] theorem State.flipPixel_stack (s : State) (r : Fin Config.rows) (c : Fin Config.columns) : (s.flipPixel r c).stack = s.stack := rfl
@[simp] theorem State.flipPixel_delayTimer (s : State) (r : Fin Config.rows) (c : Fin Config.columns) : (s.flipPixel r c).delayTimer = s.delayTimer := rfl
@[simp] theorem State.flipPixel_soundTimer (s : State) (r : Fin Config.rows) (c : Fin Config.columns) : (s.flipPixel r c).soundTimer = s.soundTimer := rfl
@[simp] theorem State.flipPixel_mem (s : State) (r : Fin Config.rows) (c : Fin Config.columns) : (s.flipPixel r c).mem = s.mem := rfl
@[simp] theorem State.flipPixel_fb (s : State) (r : Fin Config.rows) (c : Fin Config.columns) : (s.flipPixel r c).fb = s.fb.set r.val (s.fb[r.val].set c.val (!s.fb[r.val][c.val])) := rfl
@[simp] theorem State.flipPixel_keys (s : State) (r : Fin Config.rows) (c : Fin Config.columns) : (s.flipPixel r c).keys = s.keys := rfl
@[simp] theorem State.flipPixel_waitingForKey (s : State) (r : Fin Config.rows) (c : Fin Config.columns) : (s.flipPixel r c).waitingForKey = s.waitingForKey := rfl
@[simp] theorem State.flipPixel_keyRegister (s : State) (r : Fin Config.rows) (c : Fin Config.columns) : (s.flipPixel r c).keyRegister = s.keyRegister := rfl
@[simp] theorem State.flipPixel_fault (s : State) (r : Fin Config.rows) (c : Fin Config.columns) : (s.flipPixel r c).fault = s.fault := rfl

/-! ### `State.clearPixels` -/

@[simp] theorem State.clearPixels_v (s : State) : s.clearPixels.v = s.v := rfl
@[simp] theorem State.clearPixels_i (s : State) : s.clearPixels.i = s.i := rfl
@[simp] theorem State.clearPixels_pc (s : State) : s.clearPixels.pc = s.pc := rfl
@[simp] theorem State.clearPixels_stack (s : State) : s.clearPixels.stack = s.stack := rfl
@[simp] theorem State.clearPixels_delayTimer (s : State) : s.clearPixels.delayTimer = s.delayTimer := rfl
@[simp] theorem State.clearPixels_soundTimer (s : State) : s.clearPixels.soundTimer = s.soundTimer := rfl
@[simp] theorem State.clearPixels_mem (s : State) : s.clearPixels.mem = s.mem := rfl
@[simp] theorem State.clearPixels_fb (s : State) : s.clearPixels.fb = Vector.replicate Config.rows (Vector.replicate Config.columns false) := rfl
@[simp] theorem State.clearPixels_keys (s : State) : s.clearPixels.keys = s.keys := rfl
@[simp] theorem State.clearPixels_waitingForKey (s : State) : s.clearPixels.waitingForKey = s.waitingForKey := rfl
@[simp] theorem State.clearPixels_keyRegister (s : State) : s.clearPixels.keyRegister = s.keyRegister := rfl
@[simp] theorem State.clearPixels_fault (s : State) : s.clearPixels.fault = s.fault := rfl

/-! ### `State.suspend` -/

@[simp] theorem State.suspend_v (s : State) (x : VReg) : (s.suspend x).v = s.v := rfl
@[simp] theorem State.suspend_i (s : State) (x : VReg) : (s.suspend x).i = s.i := rfl
@[simp] theorem State.suspend_pc (s : State) (x : VReg) : (s.suspend x).pc = s.pc := rfl
@[simp] theorem State.suspend_stack (s : State) (x : VReg) : (s.suspend x).stack = s.stack := rfl
@[simp] theorem State.suspend_delayTimer (s : State) (x : VReg) : (s.suspend x).delayTimer = s.delayTimer := rfl
@[simp] theorem State.suspend_soundTimer (s : State) (x : VReg) : (s.suspend x).soundTimer = s.soundTimer := rfl
@[simp] theorem State.suspend_mem (s : State) (x : VReg) : (s.suspend x).mem = s.mem := rfl
@[simp] theorem State.suspend_fb (s : State) (x : VReg) : (s.suspend x).fb = s.fb := rfl
@[simp] theorem State.suspend_keys (s : State) (x : VReg) : (s.suspend x).keys = s.keys := rfl
@[simp] theorem State.suspend_waitingForKey (s : State) (x : VReg) : (s.suspend x).waitingForKey = true := rfl
@[simp] theorem State.suspend_keyRegister (s : State) (x : VReg) : (s.suspend x).keyRegister = x := rfl
@[simp] theorem State.suspend_fault (s : State) (x : VReg) : (s.suspend x).fault = s.fault := rfl

/-! ### `State.setKeys` -/

@[simp] theorem State.setKeys_v (s : State) (k : Vector Bool 16) : (s.setKeys k).v = s.v := rfl
@[simp] theorem State.setKeys_i (s : State) (k : Vector Bool 16) : (s.setKeys k).i = s.i := rfl
@[simp] theorem State.setKeys_pc (s : State) (k : Vector Bool 16) : (s.setKeys k).pc = s.pc := rfl
@[simp] theorem State.setKeys_stack (s : State) (k : Vector Bool 16) : (s.setKeys k).stack = s.stack := rfl
@[simp] theorem State.setKeys_delayTimer (s : State) (k : Vector Bool 16) : (s.setKeys k).delayTimer = s.delayTimer := rfl
@[simp] theorem State.setKeys_soundTimer (s : State) (k : Vector Bool 16) : (s.setKeys k).soundTimer = s.soundTimer := rfl
@[simp] theorem State.setKeys_mem (s : State) (k : Vector Bool 16) : (s.setKeys k).mem = s.mem := rfl
@[simp] theorem State.setKeys_fb (s : State) (k : Vector Bool 16) : (s.setKeys k).fb = s.fb := rfl
@[simp] theorem State.setKeys_keys (s : State) (k : Vector Bool 16) : (s.setKeys k).keys = k := rfl
@[simp] theorem State.setKeys_waitingForKey (s : State) (k : Vector Bool 16) : (s.setKeys k).waitingForKey = s.waitingForKey := rfl
@[simp] theorem State.setKeys_keyRegister (s : State) (k : Vector Bool 16) : (s.setKeys k).keyRegister = s.keyRegister := rfl
@[simp] theorem State.setKeys_fault (s : State) (k : Vector Bool 16) : (s.setKeys k).fault = s.fault := rfl

/-! ### `State.raise` -/

@[simp] theorem State.raise_v (s : State) (f : Fault) : (s.raise f).v = s.v := rfl
@[simp] theorem State.raise_i (s : State) (f : Fault) : (s.raise f).i = s.i := rfl
@[simp] theorem State.raise_pc (s : State) (f : Fault) : (s.raise f).pc = s.pc := rfl
@[simp] theorem State.raise_stack (s : State) (f : Fault) : (s.raise f).stack = s.stack := rfl
@[simp] theorem State.raise_delayTimer (s : State) (f : Fault) : (s.raise f).delayTimer = s.delayTimer := rfl
@[simp] theorem State.raise_soundTimer (s : State) (f : Fault) : (s.raise f).soundTimer = s.soundTimer := rfl
@[simp] theorem State.raise_mem (s : State) (f : Fault) : (s.raise f).mem = s.mem := rfl
@[simp] theorem State.raise_fb (s : State) (f : Fault) : (s.raise f).fb = s.fb := rfl
@[simp] theorem State.raise_keys (s : State) (f : Fault) : (s.raise f).keys = s.keys := rfl
@[simp] theorem State.raise_waitingForKey (s : State) (f : Fault) : (s.raise f).waitingForKey = s.waitingForKey := rfl
@[simp] theorem State.raise_keyRegister (s : State) (f : Fault) : (s.raise f).keyRegister = s.keyRegister := rfl
@[simp] theorem State.raise_fault (s : State) (f : Fault) : (s.raise f).fault = some f := rfl

/-! ### What an accessor reads after an update of another element -/

@[simp] theorem State.pixel_writeV (s : State) (r : VReg) (b : Byte) (p : Fin Config.rows) (q : Fin Config.columns) :
    (s.writeV r b).pixel p q = s.pixel p q := rfl
@[simp] theorem State.keyHeld_writeV (s : State) (r : VReg) (b : Byte) (q : Key) : (s.writeV r b).keyHeld q = s.keyHeld q := rfl
@[simp] theorem State.memRead_writeV (s : State) (r : VReg) (b : Byte) (q : Nat) : (s.writeV r b).memRead q = s.memRead q := rfl
@[simp] theorem State.readV_setI (s : State) (a : Word) (q : VReg) : (s.setI a).readV q = s.readV q := rfl
@[simp] theorem State.pixel_setI (s : State) (a : Word) (p : Fin Config.rows) (q : Fin Config.columns) :
    (s.setI a).pixel p q = s.pixel p q := rfl
@[simp] theorem State.keyHeld_setI (s : State) (a : Word) (q : Key) : (s.setI a).keyHeld q = s.keyHeld q := rfl
@[simp] theorem State.memRead_setI (s : State) (a : Word) (q : Nat) : (s.setI a).memRead q = s.memRead q := rfl
@[simp] theorem State.readV_setPc (s : State) (a : Word) (q : VReg) : (s.setPc a).readV q = s.readV q := rfl
@[simp] theorem State.pixel_setPc (s : State) (a : Word) (p : Fin Config.rows) (q : Fin Config.columns) :
    (s.setPc a).pixel p q = s.pixel p q := rfl
@[simp] theorem State.keyHeld_setPc (s : State) (a : Word) (q : Key) : (s.setPc a).keyHeld q = s.keyHeld q := rfl
@[simp] theorem State.memRead_setPc (s : State) (a : Word) (q : Nat) : (s.setPc a).memRead q = s.memRead q := rfl
@[simp] theorem State.readV_advancePc (s : State) (q : VReg) : s.advancePc.readV q = s.readV q := rfl
@[simp] theorem State.pixel_advancePc (s : State) (p : Fin Config.rows) (q : Fin Config.columns) :
    s.advancePc.pixel p q = s.pixel p q := rfl
@[simp] theorem State.keyHeld_advancePc (s : State) (q : Key) : s.advancePc.keyHeld q = s.keyHeld q := rfl
@[simp] theorem State.memRead_advancePc (s : State) (q : Nat) : s.advancePc.memRead q = s.memRead q := rfl
@[simp] theorem State.readV_skipNext (s : State) (q : VReg) : s.skipNext.readV q = s.readV q := rfl
@[simp] theorem State.pixel_skipNext (s : State) (p : Fin Config.rows) (q : Fin Config.columns) :
    s.skipNext.pixel p q = s.pixel p q := rfl
@[simp] theorem State.keyHeld_skipNext (s : State) (q : Key) : s.skipNext.keyHeld q = s.keyHeld q := rfl
@[simp] theorem State.memRead_skipNext (s : State) (q : Nat) : s.skipNext.memRead q = s.memRead q := rfl
@[simp] theorem State.readV_setDelay (s : State) (b : Byte) (q : VReg) : (s.setDelay b).readV q = s.readV q := rfl
@[simp] theorem State.pixel_setDelay (s : State) (b : Byte) (p : Fin Config.rows) (q : Fin Config.columns) :
    (s.setDelay b).pixel p q = s.pixel p q := rfl
@[simp] theorem State.keyHeld_setDelay (s : State) (b : Byte) (q : Key) : (s.setDelay b).keyHeld q = s.keyHeld q := rfl
@[simp] theorem State.memRead_setDelay (s : State) (b : Byte) (q : Nat) : (s.setDelay b).memRead q = s.memRead q := rfl
@[simp] theorem State.readV_setSound (s : State) (b : Byte) (q : VReg) : (s.setSound b).readV q = s.readV q := rfl
@[simp] theorem State.pixel_setSound (s : State) (b : Byte) (p : Fin Config.rows) (q : Fin Config.columns) :
    (s.setSound b).pixel p q = s.pixel p q := rfl
@[simp] theorem State.keyHeld_setSound (s : State) (b : Byte) (q : Key) : (s.setSound b).keyHeld q = s.keyHeld q := rfl
@[simp] theorem State.memRead_setSound (s : State) (b : Byte) (q : Nat) : (s.setSound b).memRead q = s.memRead q := rfl
@[simp] theorem State.readV_tick (s : State) (q : VReg) : s.tick.readV q = s.readV q := rfl
@[simp] theorem State.pixel_tick (s : State) (p : Fin Config.rows) (q : Fin Config.columns) :
    s.tick.pixel p q = s.pixel p q := rfl
@[simp] theorem State.keyHeld_tick (s : State) (q : Key) : s.tick.keyHeld q = s.keyHeld q := rfl
@[simp] theorem State.memRead_tick (s : State) (q : Nat) : s.tick.memRead q = s.memRead q := rfl
@[simp] theorem State.readV_flipPixel (s : State) (r : Fin Config.rows) (c : Fin Config.columns) (q : VReg) : (s.flipPixel r c).readV q = s.readV q := rfl
@[simp] theorem State.keyHeld_flipPixel (s : State) (r : Fin Config.rows) (c : Fin Config.columns) (q : Key) : (s.flipPixel r c).keyHeld q = s.keyHeld q := rfl
@[simp] theorem State.memRead_flipPixel (s : State) (r : Fin Config.rows) (c : Fin Config.columns) (q : Nat) : (s.flipPixel r c).memRead q = s.memRead q := rfl
@[simp] theorem State.readV_clearPixels (s : State) (q : VReg) : s.clearPixels.readV q = s.readV q := rfl
@[simp] theorem State.keyHeld_clearPixels (s : State) (q : Key) : s.clearPixels.keyHeld q = s.keyHeld q := rfl
@[simp] theorem State.memRead_clearPixels (s : State) (q : Nat) : s.clearPixels.memRead q = s.memRead q := rfl
@[simp] theorem State.readV_suspend (s : State) (x : VReg) (q : VReg) : (s.suspend x).readV q = s.readV q := rfl
@[simp] theorem State.pixel_suspend (s : State) (x : VReg) (p : Fin Config.rows) (q : Fin Config.columns) :
    (s.suspend x).pixel p q = s.pixel p q := rfl
@[simp] theorem State.keyHeld_suspend (s : State) (x : VReg) (q : Key) : (s.suspend x).keyHeld q = s.keyHeld q := rfl
@[simp] theorem State.memRead_suspend (s : State) (x : VReg) (q : Nat) : (s.suspend x).memRead q = s.memRead q := rfl
@[simp] theorem State.readV_setKeys (s : State) (k : Vector Bool 16) (q : VReg) : (s.setKeys k).readV q = s.readV q := rfl
@[simp] theorem State.pixel_setKeys (s : State) (k : Vector Bool 16) (p : Fin Config.rows) (q : Fin Config.columns) :
    (s.setKeys k).pixel p q = s.pixel p q := rfl
@[simp] theorem State.memRead_setKeys (s : State) (k : Vector Bool 16) (q : Nat) : (s.setKeys k).memRead q = s.memRead q := rfl
@[simp] theorem State.readV_raise (s : State) (f : Fault) (q : VReg) : (s.raise f).readV q = s.readV q := rfl
@[simp] theorem State.pixel_raise (s : State) (f : Fault) (p : Fin Config.rows) (q : Fin Config.columns) :
    (s.raise f).pixel p q = s.pixel p q := rfl
@[simp] theorem State.keyHeld_raise (s : State) (f : Fault) (q : Key) : (s.raise f).keyHeld q = s.keyHeld q := rfl
@[simp] theorem State.memRead_raise (s : State) (f : Fault) (q : Nat) : (s.raise f).memRead q = s.memRead q := rfl

/-! ### What an accessor reads after an update of its own element -/

/-- A register reads what was last written to it (`10_state.md` R21: no register is hardwired, no two alias). -/
theorem State.readV_writeV (s : State) (r : VReg) (b : Byte) (q : VReg) :
    (s.writeV r b).readV q = if r = q then b else s.readV q := by
  simp [State.readV, Vector.getElem_set, Fin.ext_iff]

@[simp] theorem State.readV_writeV_same (s : State) (r : VReg) (b : Byte) : (s.writeV r b).readV r = b := by
  simp [State.readV_writeV]

theorem State.readV_writeV_other (s : State) {r q : VReg} (h : q ≠ r) (b : Byte) :
    (s.writeV r b).readV q = s.readV q := by
  simp [State.readV_writeV, Ne.symm h]

theorem State.pixel_flipPixel (s : State) (r p : Fin Config.rows) (c q : Fin Config.columns) :
    (s.flipPixel r c).pixel p q = if r = p ∧ c = q then !s.pixel p q else s.pixel p q := by
  simp only [State.pixel, State.flipPixel_fb, Vector.getElem_set, Fin.ext_iff]
  split
  · next h => simp only [h, true_and, Vector.getElem_set]; split <;> simp_all
  · next h => simp [h]

@[simp] theorem State.pixel_clearPixels (s : State) (p : Fin Config.rows) (q : Fin Config.columns) :
    s.clearPixels.pixel p q = false := by
  simp [State.pixel]

@[simp] theorem State.keyHeld_setKeys (s : State) (k : Vector Bool 16) (q : Key) :
    (s.setKeys k).keyHeld q = k[q.val] := rfl

end Sys2Proof.Machine
end

