-- ==== Sys2Proof/Laws/Memory.lean ====
section
/-! SUPPORT. The laws of memory: a read after a write to the same address gives the value written, every other address
reads as before, every operation keeps the canonical form, and the form is canonical (equal reads, equal lists). -/

namespace Sys2Proof.Machine

/-- An address below every listed one reads as unlisted. -/
theorem Memory.get_of_lt {m : Memory} {a : Nat} (h : ∀ c ∈ m, a < c.1) : m.get a = Memory.unlisted a := by
  induction m with
  | nil => rfl
  | cons c rest ih =>
    obtain ⟨k, b⟩ := c
    have hk : a < k := h (k, b) (by simp)
    simp only [Memory.get, if_neg (Nat.ne_of_gt hk)]
    exact ih fun c hc => h c (by simp [hc])

theorem Memory.get_entry_append_same {m : Memory} {a : Nat} (b : Byte) (h : ∀ c ∈ m, a < c.1) :
    (Memory.entry a b ++ m).get a = b := by
  unfold Memory.entry
  split
  · next hb => simpa [hb] using Memory.get_of_lt h
  · simp [Memory.get]

theorem Memory.get_entry_append_other {m : Memory} {a q : Nat} (b : Byte) (h : q ≠ a) :
    (Memory.entry a b ++ m).get q = m.get q := by
  unfold Memory.entry
  split
  · rfl
  · simp [Memory.get, Ne.symm h]

/-- A read after a write to the same address gives the byte written (`20_memory.md` R63). -/
theorem Memory.get_put_same {m : Memory} (h : m.wf) (a : Nat) (b : Byte) : (m.put a b).get a = b := by
  replace h := h.1
  induction m with
  | nil => simpa [Memory.put] using Memory.get_entry_append_same (m := []) b (by simp)
  | cons c rest ih =>
    obtain ⟨k, d⟩ := c
    obtain ⟨hk, hr⟩ := List.pairwise_cons.1 h
    simp only [Memory.put]
    split
    · next hlt =>
      refine Memory.get_entry_append_same b ?_
      rintro c hc
      rcases List.mem_cons.1 hc with rfl | hc
      · exact hlt
      · exact Nat.lt_trans hlt (hk c hc)
    · split
      · next heq => subst heq; exact Memory.get_entry_append_same b hk
      · next hne => simpa [Memory.get, Ne.symm hne] using ih hr

/-- A write leaves every other address alone (`20_memory.md` R67). -/
theorem Memory.get_put_other (m : Memory) {a q : Nat} (h : q ≠ a) (b : Byte) : (m.put a b).get q = m.get q := by
  induction m with
  | nil => simpa [Memory.put] using Memory.get_entry_append_other (m := []) b h
  | cons c rest ih =>
    obtain ⟨k, d⟩ := c
    simp only [Memory.put]
    split
    · rw [Memory.get_entry_append_other b h]
    · split
      · next heq =>
        rw [Memory.get_entry_append_other b h]
        simp [Memory.get, heq ▸ Ne.symm h]
      · simp only [Memory.get, ih]

theorem Memory.get_put {m : Memory} (h : m.wf) (a q : Nat) (b : Byte) :
    (m.put a b).get q = if q = a then b else m.get q := by
  split
  · next hq => subst hq; exact Memory.get_put_same h _ b
  · next hq => exact Memory.get_put_other m hq b

theorem Memory.wf_nil : Memory.wf [] := by simp [Memory.wf]

theorem Memory.wf_entry_append {m : Memory} {a : Nat} (b : Byte) (hm : m.wf) (ha : a < Config.memorySize)
    (h : ∀ c ∈ m, a < c.1) : Memory.wf (Memory.entry a b ++ m) := by
  unfold Memory.entry
  split
  · exact hm
  · next hb =>
    refine ⟨List.pairwise_cons.2 ⟨h, hm.1⟩, ?_⟩
    rintro c hc
    rcases List.mem_cons.1 hc with rfl | hc
    · exact ⟨ha, hb⟩
    · exact hm.2 c hc

theorem Memory.wf_tail {c : Host.Cell} {m : Memory} (h : Memory.wf (c :: m)) : m.wf :=
  ⟨(List.pairwise_cons.1 h.1).2, fun d hd => h.2 d (List.mem_cons_of_mem _ hd)⟩

/-- The addresses that a write can list. -/
theorem Memory.mem_put {m : Memory} {a : Nat} {b : Byte} {c : Host.Cell} (h : c ∈ m.put a b) : c.1 = a ∨ c ∈ m := by
  have entry : ∀ {r : Memory}, c ∈ Memory.entry a b ++ r → c.1 = a ∨ c ∈ r := by
    intro r hc
    unfold Memory.entry at hc
    split at hc
    · exact .inr hc
    · rcases List.mem_cons.1 hc with rfl | hc
      · exact .inl rfl
      · exact .inr hc
  induction m with
  | nil => exact entry (r := []) (by simpa [Memory.put] using h)
  | cons d rest ih =>
    obtain ⟨k, e⟩ := d
    simp only [Memory.put] at h
    split at h
    · exact entry h
    · split at h
      · exact (entry h).imp_right (List.mem_cons_of_mem _)
      · rcases List.mem_cons.1 h with rfl | h
        · exact .inr (by simp)
        · exact (ih h).imp_right (List.mem_cons_of_mem _)

/-- A write keeps the canonical form. -/
theorem Memory.wf_put {m : Memory} (hm : m.wf) {a : Nat} (ha : a < Config.memorySize) (b : Byte) : (m.put a b).wf := by
  induction m with
  | nil => simpa [Memory.put] using Memory.wf_entry_append b Memory.wf_nil ha (by simp)
  | cons c rest ih =>
    obtain ⟨k, d⟩ := c
    obtain ⟨hk, hr⟩ := List.pairwise_cons.1 hm.1
    simp only [Memory.put]
    split
    · next hlt =>
      refine Memory.wf_entry_append b hm ha ?_
      rintro c hc
      rcases List.mem_cons.1 hc with rfl | hc
      · exact hlt
      · exact Nat.lt_trans hlt (hk c hc)
    · split
      · next heq => subst heq; exact Memory.wf_entry_append b (Memory.wf_tail hm) ha hk
      · next hge hne =>
        have hput := ih (Memory.wf_tail hm)
        refine ⟨List.pairwise_cons.2 ⟨?_, hput.1⟩, ?_⟩
        · rintro c hc
          rcases Memory.mem_put hc with h | h
          · simp only at *; omega
          · exact hk c h
        · rintro c hc
          rcases List.mem_cons.1 hc with rfl | hc
          · exact hm.2 _ (by simp)
          · exact hput.2 c hc

/-- A load keeps the canonical form when all its bytes lie in memory. -/
theorem Memory.wf_putAll {m : Memory} (hm : m.wf) {a : Nat} {bytes : List Byte}
    (h : a + bytes.length ≤ Config.memorySize) : (m.putAll a bytes).wf := by
  induction bytes generalizing m a with
  | nil => exact hm
  | cons b rest ih =>
    simp only [List.length_cons] at h
    exact ih (Memory.wf_put hm (by omega) b) (by omega)

/-- What every address reads after a load (`20_memory.md` R60). -/
theorem Memory.get_putAll {m : Memory} (hm : m.wf) {a : Nat} {bytes : List Byte}
    (h : a + bytes.length ≤ Config.memorySize) (q : Nat) :
    (m.putAll a bytes).get q = if a ≤ q then bytes.getD (q - a) (m.get q) else m.get q := by
  induction bytes generalizing m a with
  | nil => simp [Memory.putAll]
  | cons b rest ih =>
    simp only [List.length_cons] at h
    rw [Memory.putAll, ih (Memory.wf_put hm (by omega) b) (by omega), Memory.get_put hm]
    by_cases hq : q = a
    · subst hq; simp
    · by_cases hle : a ≤ q
      · have hsub : q - a = (q - (a + 1)) + 1 := by omega
        simp [hq, hle, hsub, show a + 1 ≤ q by omega]
      · simp [hq, hle, show ¬ a + 1 ≤ q by omega]

/-- The form is canonical: memories that read the same everywhere are the same list. -/
theorem Memory.ext_of_wf {m m' : Memory} (h : m.wf) (h' : m'.wf) (hget : ∀ a, m.get a = m'.get a) : m = m' := by
  induction m generalizing m' with
  | nil =>
    cases m' with
    | nil => rfl
    | cons c rest =>
      have := hget c.1
      simp [Memory.get] at this
      exact absurd this.symm (h'.2 c (by simp)).2
  | cons c rest ih =>
    obtain ⟨k, b⟩ := c
    have hk := (List.pairwise_cons.1 h.1).1
    cases m' with
    | nil =>
      have := hget k
      simp [Memory.get] at this
      exact absurd this (h.2 (k, b) (by simp)).2
    | cons c' rest' =>
      obtain ⟨k', b'⟩ := c'
      have hk' := (List.pairwise_cons.1 h'.1).1
      have hkk : k = k' := by
        rcases Nat.lt_trichotomy k k' with hlt | heq | hgt
        · have hr := hget k
          rw [Memory.get_of_lt (m := (k', b') :: rest')
            (by rintro c hc; rcases List.mem_cons.1 hc with rfl | hc
                · exact hlt
                · exact Nat.lt_trans hlt (hk' c hc))] at hr
          simp [Memory.get] at hr
          exact absurd hr (h.2 (k, b) (by simp)).2
        · exact heq
        · have hr := hget k'
          rw [Memory.get_of_lt (m := (k, b) :: rest)
            (by rintro c hc; rcases List.mem_cons.1 hc with rfl | hc
                · exact hgt
                · exact Nat.lt_trans hgt (hk c hc))] at hr
          simp [Memory.get] at hr
          exact absurd hr.symm (h'.2 (k', b') (by simp)).2
      subst hkk
      have hbb : b = b' := by simpa [Memory.get] using hget k
      subst hbb
      refine congrArg _ (ih (Memory.wf_tail h) (Memory.wf_tail h') fun a => ?_)
      by_cases ha : k = a
      · subst ha; rw [Memory.get_of_lt hk, Memory.get_of_lt hk']
      · simpa [Memory.get, ha] using hget a

/-! ### `MemRead` -/

theorem State.memRead_of_le {s : State} {a : Nat} (h : a ≤ 0xFFF) : s.memRead a = .ok (s.mem.get a) := by
  simp [State.memRead, h]

theorem State.memRead_of_gt {s : State} {a : Nat} (h : 0xFFF < a) : s.memRead a = .error (.memoryBounds a) := by
  simp [State.memRead, Nat.not_le.2 h]

/-- All that a read can answer. -/
theorem State.memRead_cases (s : State) (a : Nat) :
    (a ≤ 0xFFF ∧ s.memRead a = .ok (s.mem.get a)) ∨ (0xFFF < a ∧ s.memRead a = .error (.memoryBounds a)) := by
  rcases Nat.lt_or_ge 0xFFF a with h | h
  · exact .inr ⟨h, State.memRead_of_gt h⟩
  · exact .inl ⟨h, State.memRead_of_le h⟩

/-- All that a write can answer: the byte stored and the form kept, or the fault and nothing written. -/
theorem State.memWrite_cases {s : State} (hm : s.mem.wf) (a : Nat) (b : Byte) :
    (a ≤ 0xFFF ∧ ∃ t, s.memWrite a b = .ok t ∧ t.mem.wf ∧ ∀ q, t.mem.get q = if q = a then b else s.mem.get q) ∨
    (0xFFF < a ∧ s.memWrite a b = .error (.memoryBounds a)) := by
  rcases Nat.lt_or_ge 0xFFF a with h | h
  · exact .inr ⟨h, by simp [State.memWrite, Nat.not_le.2 h]⟩
  · have ha : a < Config.memorySize := by simp only [Config.memorySize]; omega
    exact .inl ⟨h, { s with mem := s.mem.put a b }, by simp [State.memWrite, h], Memory.wf_put hm ha b,
      fun q => Memory.get_put hm a q b⟩

theorem State.reset_mem_wf : State.reset.mem.wf := Memory.wf_nil

end Sys2Proof.Machine
end

