-- ==== Sys2Proof/Laws/Ops.lean ====
section
/-! SUPPORT. One lemma per shared operation that says everything it can answer: the fetch, the stack, the timers, the end of
a cycle, the key operand, and the resolution of a key-wait. -/

namespace Sys2Proof.Machine

/-! ### The fetch (`40_cycle.md` R91) -/

/-- All that a fetch can answer: the big-endian word at pc, or the fault of its first byte, or of its second. -/
theorem State.fetch_cases (s : State) :
    (s.pc.toNat ≤ 0xFFE ∧ s.fetch = .ok (wordOfBytes (s.mem.get s.pc.toNat) (s.mem.get (s.pc.toNat + 1)))) ∨
    (s.pc.toNat = 0xFFF ∧ s.fetch = .error (.memoryBounds 0x1000)) ∨
    (0xFFF < s.pc.toNat ∧ s.fetch = .error (.memoryBounds s.pc.toNat)) := by
  unfold State.fetch
  rcases s.memRead_cases s.pc.toNat with ⟨h, e⟩ | ⟨h, e⟩
  · rcases s.memRead_cases (s.pc.toNat + 1) with ⟨h', e'⟩ | ⟨h', e'⟩
    · exact .inl ⟨by omega, by simp [e, e']⟩
    · have hpc : s.pc.toNat = 0xFFF := by omega
      exact .inr (.inl ⟨hpc, by rw [e, e']; simp [hpc]⟩)
  · exact .inr (.inr ⟨h, by simp [e]⟩)

theorem State.fetch_of_le {s : State} (h : s.pc.toNat ≤ 0xFFE) :
    s.fetch = .ok (wordOfBytes (s.mem.get s.pc.toNat) (s.mem.get (s.pc.toNat + 1))) := by
  rcases s.fetch_cases with ⟨_, e⟩ | ⟨h', _⟩ | ⟨h', _⟩
  · exact e
  · omega
  · omega

theorem State.pc_le_of_fetch {s : State} {op : Word} (h : s.fetch = .ok op) : s.pc.toNat ≤ 0xFFE := by
  rcases s.fetch_cases with ⟨h', _⟩ | ⟨_, e⟩ | ⟨_, e⟩
  · exact h'
  · simp [e] at h
  · simp [e] at h

/-- A fetch reads memory and pc only. -/
theorem State.fetch_congr {s t : State} (hm : t.mem = s.mem) (hp : t.pc = s.pc) : t.fetch = s.fetch := by
  simp [State.fetch, State.memRead, hm, hp]

/-! ### The call stack (`10_state.md` R26) -/

/-- All that a push can answer. -/
theorem State.push_cases (s : State) (depth : Option Nat) (a : Word) :
    ((∀ d, depth = some d → s.stack.length < d) ∧ s.push depth a = .ok { s with stack := a :: s.stack }) ∨
    ((∃ d, depth = some d ∧ d ≤ s.stack.length) ∧ s.push depth a = .error .stackOverflow) := by
  cases depth with
  | none => exact .inl ⟨by simp, rfl⟩
  | some d =>
    rcases Nat.lt_or_ge s.stack.length d with h | h
    · exact .inl ⟨by simpa using h, by simp [State.push, h]⟩
    · exact .inr ⟨⟨d, rfl, h⟩, by simp [State.push, Nat.not_lt.2 h]⟩

/-- All that a pop can answer. -/
theorem State.pop_cases (s : State) :
    (∃ top rest, s.stack = top :: rest ∧ s.pop = .ok (top, { s with stack := rest })) ∨
    (s.stack = [] ∧ s.pop = .error .stackUnderflow) := by
  unfold State.pop
  match h : s.stack with
  | top :: rest => exact .inl ⟨top, rest, rfl, rfl⟩
  | [] => exact .inr ⟨rfl, rfl⟩

/-! ### Timers (`40_cycle.md` R96) -/

/-- A decrement never goes below 0: it is subtraction of natural numbers. -/
@[simp] theorem decrement_toNat (t : Byte) : (decrement t).toNat = t.toNat - 1 := by
  have := t.isLt
  unfold decrement
  split
  · rw [BitVec.toNat_sub]; simp; omega
  · omega

theorem decrement_zero : decrement 0 = 0 := by decide

/-! ### The end of a cycle -/

@[simp] theorem endCycle_next (s : State) : endCycle (.next s) = .next s.endCycle := rfl

theorem State.endCycle_of_none {s : State} (h : s.fault = none) : s.endCycle = s.tick := by
  simp [State.endCycle, h]

theorem State.endCycle_of_some {s : State} {f : Fault} (h : s.fault = some f) : s.endCycle = s := by
  simp [State.endCycle, h]

@[simp] theorem State.endCycle_fault (s : State) : s.endCycle.fault = s.fault := by
  unfold State.endCycle; split <;> rfl

@[simp] theorem State.endCycle_pc (s : State) : s.endCycle.pc = s.pc := by
  unfold State.endCycle; split <;> rfl

@[simp] theorem State.endCycle_mem (s : State) : s.endCycle.mem = s.mem := by
  unfold State.endCycle; split <;> rfl

/-- The end of a cycle changes no element but the timers. -/
theorem State.endCycle_eq (s : State) :
    s.endCycle = { s with delayTimer := s.endCycle.delayTimer, soundTimer := s.endCycle.soundTimer } := by
  unfold State.endCycle; split <;> rfl

/-! ### The key operand (`44_keypad.md` R130) -/

/-- All that a key operand can be. -/
theorem keyOperand_cases (s : State) (x : VReg) :
    (∃ k : Key, k.val = (s.readV x).toNat ∧ keyOperand s x = .ok k) ∨
    (15 < (s.readV x).toNat ∧ keyOperand s x = .error (.keyIndex (s.readV x))) := by
  rcases Nat.lt_or_ge (s.readV x).toNat 16 with h | h
  · exact .inl ⟨⟨_, h⟩, rfl, by simp [keyOperand, h]⟩
  · exact .inr ⟨h, by simp [keyOperand, Nat.not_lt.2 h]⟩

/-! ### The operands of a draw (`43_display.md` R121) -/

theorem startColumn_eq (s : State) (x : VReg) : startColumn s x = (s.readV x).toNat % 64 := rfl

theorem startRow_eq (s : State) (y : VReg) : startRow s y = (s.readV y).toNat % 32 := rfl

theorem spriteBit_eq (b : Byte) (c : Nat) : spriteBit b c = b.getLsbD (7 - c) := rfl

/-! ### The key-wait's resolution (`44_keypad.md` R134, R135) -/

/-- Every key has a place in the order. -/
theorem mem_visitOrder (order : Equiv.Perm Key) (j : Key) : j ∈ visitOrder order := by
  simp only [visitOrder, List.mem_map, List.mem_finRange, true_and]
  exact ⟨order.symm j, by simp⟩

/-- No key is held exactly when there is no first held key. -/
theorem firstHeld_eq_none (order : Equiv.Perm Key) (keys : Vector Bool 16) :
    firstHeld order keys = none ↔ ∀ j : Key, keys[j.val] = false := by
  simp only [firstHeld, List.find?_eq_none, Bool.not_eq_true]
  exact ⟨fun h j => h j (mem_visitOrder order j), fun h j _ => h j⟩

/-- The first held key is held. -/
theorem firstHeld_held {order : Equiv.Perm Key} {keys : Vector Bool 16} {j : Key} (h : firstHeld order keys = some j) :
    keys[j.val] = true := by
  simpa using List.find?_some h

/-- All that a refresh can do (`44_keypad.md` R136): nothing in the faulted state; otherwise the keys, and in WAIT with a
held key the destination register and the end of the wait. -/
theorem inputRefreshWith_cases (order : Equiv.Perm Key) (k : Vector Bool 16) (s : State) :
    (s.fault ≠ none ∧ inputRefreshWith order k s = s) ∨
    (s.fault = none ∧ (s.waitingForKey = false ∨ firstHeld order k = none) ∧
      inputRefreshWith order k s = s.setKeys k) ∨
    (s.fault = none ∧ s.waitingForKey = true ∧ ∃ j, firstHeld order k = some j ∧ inputRefreshWith order k s =
      { (s.setKeys k).writeV s.keyRegister (BitVec.ofNat 8 j.val) with waitingForKey := false }) := by
  unfold inputRefreshWith State.resolveWait
  cases hf : s.fault with
  | some f => exact .inl ⟨by simp, by simp⟩
  | none =>
    cases hw : s.waitingForKey with
    | false => exact .inr (.inl ⟨rfl, .inl rfl, by simp⟩)
    | true =>
      cases hh : firstHeld order k with
      | none => exact .inr (.inl ⟨rfl, .inr rfl, by simp [hh]⟩)
      | some j => exact .inr (.inr ⟨rfl, rfl, j, rfl, by simp [hh]⟩)

end Sys2Proof.Machine
end

