-- ==== Sys2Proof/Laws/Display.lean ====
section
/-! SUPPORT. What a draw does, said once: `Drawn s t hits` is the effect of laying the sprite bits `hits` on the display,
and the two loops of `DRW` are such effects (`43_display.md` R121, R122 (j)). -/

namespace Sys2Proof.Machine

/-- `t` is `s` after laying the 1 bits `hits` on the display: every pixel is XOR-ed, VF becomes 1 when a hit pixel was on
and keeps its value otherwise, and nothing else changes. -/
structure Drawn (s t : State) (hits : Fin Config.rows → Fin Config.columns → Bool) : Prop where
  pixel : ∀ p q, t.pixel p q = (s.pixel p q ^^ hits p q)
  flag_set : (∃ p q, hits p q = true ∧ s.pixel p q = true) → t.readV vf = 1
  flag_keep : (∀ p q, hits p q = true → s.pixel p q = false) → t.readV vf = s.readV vf
  others : ∀ r, r ≠ vf → t.readV r = s.readV r
  rest : t = { s with v := t.v, fb := t.fb }

theorem Drawn.congr {s t : State} {hits hits' : Fin Config.rows → Fin Config.columns → Bool} (h : Drawn s t hits)
    (e : ∀ p q, hits p q = hits' p q) : Drawn s t hits' := by
  have : hits = hits' := funext fun p => funext fun q => e p q
  exact this ▸ h

/-- No bit: nothing changes. -/
theorem Drawn.none (s : State) : Drawn s s fun _ _ => false :=
  ⟨by simp, by simp, by simp, by simp, rfl⟩

/-- Two disjoint sets of bits one after the other are their union. -/
theorem Drawn.trans {s t u : State} {a b : Fin Config.rows → Fin Config.columns → Bool} (h : Drawn s t a)
    (h' : Drawn t u b) (disjoint : ∀ p q, ¬(a p q = true ∧ b p q = true)) : Drawn s u fun p q => a p q || b p q := by
  have onB : ∀ p q, b p q = true → t.pixel p q = s.pixel p q := by
    intro p q hb
    have : a p q = false := by
      cases ha : a p q with
      | false => rfl
      | true => exact absurd ⟨ha, hb⟩ (disjoint p q)
    simp [h.pixel, this]
  have keepB : (∀ p q, b p q = true → s.pixel p q = false) → u.readV vf = t.readV vf := fun hall =>
    h'.flag_keep fun p q hb => (onB p q hb).trans (hall p q hb)
  refine ⟨?_, ?_, ?_, ?_, ?_⟩
  · intro p q
    rw [h'.pixel, h.pixel]
    cases ha : a p q <;> cases hb : b p q <;> simp_all
  · rintro ⟨p, q, hab, hs⟩
    by_cases hex : ∃ p q, b p q = true ∧ s.pixel p q = true
    · obtain ⟨p', q', hb, hs'⟩ := hex
      exact h'.flag_set ⟨p', q', hb, (onB p' q' hb).trans hs'⟩
    · have hno : ∀ p q, b p q = true → s.pixel p q = false := fun p' q' hb => by
        by_contra hne
        exact hex ⟨p', q', hb, by simpa using hne⟩
      rw [keepB hno]
      refine h.flag_set ⟨p, q, ?_, hs⟩
      rcases Bool.or_eq_true _ _ ▸ hab with ha | hb
      · exact ha
      · exact absurd ⟨p, q, hb, hs⟩ hex
  · intro hall
    rw [keepB fun p q hb => hall p q (by simp [hb])]
    exact h.flag_keep fun p q ha => hall p q (by simp [ha])
  · exact fun r hr => (h'.others r hr).trans (h.others r hr)
  · have e := h'.rest
    rw [h.rest] at e
    exact e

/-- One sprite bit that is 1. -/
theorem drawn_drawPixel (s : State) (r : Fin Config.rows) (c : Fin Config.columns) :
    Drawn s (drawPixel r c s) fun p q => decide (p = r ∧ q = c) := by
  have hpix : ∀ p q, (s.noteCollision r c).pixel p q = s.pixel p q := by
    intro p q; unfold State.noteCollision; split <;> simp
  refine ⟨?_, ?_, ?_, ?_, ?_⟩
  · intro p q
    simp only [drawPixel, State.pixel_flipPixel, hpix]
    by_cases h : r = p ∧ c = q
    · obtain ⟨rfl, rfl⟩ := h; simp
    · have h' : ¬(p = r ∧ q = c) := fun ⟨a, b⟩ => h ⟨a.symm, b.symm⟩
      simp only [if_neg h]
      simp [h']
  · rintro ⟨p, q, hpq, hs⟩
    obtain ⟨rfl, rfl⟩ := of_decide_eq_true hpq
    simp [drawPixel, State.noteCollision, hs]
  · intro hall
    have hs : s.pixel r c = false := hall r c (by simp)
    simp [drawPixel, State.noteCollision, hs]
  · intro q hq
    simp only [drawPixel, State.readV_flipPixel, State.noteCollision]
    split
    · exact State.readV_writeV_other s hq 1
    · rfl
  · unfold drawPixel State.noteCollision
    split <;> rfl

/-- The inner loop: the bits of one sprite byte from column `c0` on, clipped at column 63. -/
theorem drawn_drawColumns (row : Fin Config.rows) (x0 : Nat) (b : Byte) (k c0 : Nat) (s : State) :
    Drawn s (drawColumns row x0 b (List.range' c0 k) s) fun p q =>
      decide (p = row ∧ x0 + c0 ≤ q.val ∧ q.val < x0 + c0 + k) && spriteBit b (q.val - x0) := by
  induction k generalizing c0 s with
  | zero =>
    refine (Drawn.none s).congr fun p q => ?_
    have : ¬(p = row ∧ x0 + c0 ≤ q.val ∧ q.val < x0 + c0 + 0) := by omega
    rw [decide_eq_false this, Bool.false_and]
  | succ k ih =>
    rw [List.range'_succ, drawColumns]
    split
    · next hlt =>
      have one : Drawn s (if spriteBit b c0 then drawPixel row ⟨x0 + c0, hlt⟩ s else s)
          fun p q => decide (p = row ∧ q.val = x0 + c0) && spriteBit b c0 := by
        split
        · next hb => exact (drawn_drawPixel s row ⟨x0 + c0, hlt⟩).congr fun p q => by simp [hb, Fin.ext_iff]
        · next hb => exact (Drawn.none s).congr fun p q => by simp [hb]
      refine (one.trans (ih (c0 + 1) _) ?_).congr fun p q => ?_
      · rintro p q ⟨h1, h2⟩
        simp only [Bool.and_eq_true, decide_eq_true_eq] at h1 h2
        omega
      · by_cases hp : p = row
        · by_cases hq : q.val = x0 + c0
          · simp [hp, hq]
          · have e : (x0 + (c0 + 1) ≤ q.val ∧ q.val < x0 + (c0 + 1) + k) ↔
                (x0 + c0 ≤ q.val ∧ q.val < x0 + c0 + (k + 1)) := by omega
            simp [hp, hq, e]
        · simp [hp]
    · next hge =>
      refine (Drawn.none s).congr fun p q => ?_
      have : ¬(p = row ∧ x0 + c0 ≤ q.val ∧ q.val < x0 + c0 + (k + 1)) := by
        have := q.isLt
        omega
      rw [decide_eq_false this, Bool.false_and]

/-- The bits that the sprite rows `r0` to `r0 + k - 1` lay on the display of `s`. -/
def rowBits (s : State) (x0 y0 r0 k : Nat) (p : Fin Config.rows) (q : Fin Config.columns) : Bool :=
  decide (y0 + r0 ≤ p.val ∧ p.val < y0 + r0 + k ∧ x0 ≤ q.val ∧ q.val < x0 + 8)
    && spriteBit (s.mem.get (s.i.toNat + (p.val - y0))) (q.val - x0)

/-- One row that is not clipped and lies in memory. -/
theorem drawn_row (s : State) (x0 y0 r : Nat) (h : y0 + r < Config.rows) :
    Drawn s (drawColumns ⟨y0 + r, h⟩ x0 (s.mem.get (spriteAddress s r)) (List.range 8) s) (rowBits s x0 y0 r 1) := by
  rw [List.range_eq_range']
  refine (drawn_drawColumns ⟨y0 + r, h⟩ x0 _ 8 0 s).congr fun p q => ?_
  unfold rowBits spriteAddress
  by_cases hp : p.val = y0 + r
  · have e : p.val - y0 = r := by omega
    have hp' : p = ⟨y0 + r, h⟩ := Fin.ext hp
    simp [hp']
  · have hp' : p ≠ ⟨y0 + r, h⟩ := fun e => hp (congrArg Fin.val e)
    have h2 : ¬(y0 + r ≤ p.val ∧ p.val < y0 + r + 1 ∧ x0 ≤ q.val ∧ q.val < x0 + 8) := by omega
    rw [decide_eq_false h2, decide_eq_false (fun e => hp' e.1), Bool.false_and, Bool.false_and]

theorem rowBits_split (s : State) (x0 y0 r0 k : Nat) (p : Fin Config.rows) (q : Fin Config.columns) :
    (rowBits s x0 y0 r0 1 p q || rowBits s x0 y0 (r0 + 1) k p q) = rowBits s x0 y0 r0 (k + 1) p q := by
  unfold rowBits
  by_cases h1 : p.val = y0 + r0
  · have e1 : (y0 + r0 ≤ p.val ∧ p.val < y0 + r0 + 1 ∧ x0 ≤ q.val ∧ q.val < x0 + 8) ↔
        (y0 + r0 ≤ p.val ∧ p.val < y0 + r0 + (k + 1) ∧ x0 ≤ q.val ∧ q.val < x0 + 8) := by omega
    have e2 : ¬(y0 + (r0 + 1) ≤ p.val ∧ p.val < y0 + (r0 + 1) + k ∧ x0 ≤ q.val ∧ q.val < x0 + 8) := by omega
    simp only [e1, e2]; simp
  · have e1 : ¬(y0 + r0 ≤ p.val ∧ p.val < y0 + r0 + 1 ∧ x0 ≤ q.val ∧ q.val < x0 + 8) := by omega
    have e2 : (y0 + (r0 + 1) ≤ p.val ∧ p.val < y0 + (r0 + 1) + k ∧ x0 ≤ q.val ∧ q.val < x0 + 8) ↔
        (y0 + r0 ≤ p.val ∧ p.val < y0 + r0 + (k + 1) ∧ x0 ≤ q.val ∧ q.val < x0 + 8) := by omega
    simp only [e1, e2]; simp

theorem rowBits_disjoint (s : State) (x0 y0 r0 k : Nat) (p : Fin Config.rows) (q : Fin Config.columns) :
    ¬(rowBits s x0 y0 r0 1 p q = true ∧ rowBits s x0 y0 (r0 + 1) k p q = true) := by
  unfold rowBits
  simp only [Bool.and_eq_true, decide_eq_true_eq]
  omega

theorem rowBits_congr {s t : State} (hm : t.mem = s.mem) (hi : t.i = s.i) (x0 y0 r0 k : Nat) :
    rowBits t x0 y0 r0 k = rowBits s x0 y0 r0 k := by
  unfold rowBits; simp [hm, hi]

theorem Drawn.mem {s t : State} {hits : Fin Config.rows → Fin Config.columns → Bool} (h : Drawn s t hits) :
    t.mem = s.mem := by rw [h.rest]

theorem Drawn.i {s t : State} {hits : Fin Config.rows → Fin Config.columns → Bool} (h : Drawn s t hits) :
    t.i = s.i := by rw [h.rest]

/-- The outer loop when every row it draws lies in memory. -/
theorem drawn_drawRows (x0 y0 k r0 : Nat) (s : State)
    (h : ∀ r, r0 ≤ r → r < r0 + k → y0 + r < Config.rows → s.i.toNat + r ≤ 0xFFF) :
    Drawn s (drawRows x0 y0 (List.range' r0 k) s) (rowBits s x0 y0 r0 k) := by
  induction k generalizing r0 s with
  | zero =>
    refine (Drawn.none s).congr fun p q => ?_
    have : ¬(y0 + r0 ≤ p.val ∧ p.val < y0 + r0 + 0 ∧ x0 ≤ q.val ∧ q.val < x0 + 8) := by omega
    rw [rowBits, decide_eq_false this, Bool.false_and]
  | succ k ih =>
    rw [List.range'_succ, drawRows]
    split
    · next hlt =>
      rw [State.memRead_of_le (a := spriteAddress s r0) (h r0 (Nat.le_refl _) (by omega) hlt)]
      have one := drawn_row s x0 y0 r0 hlt
      refine (one.trans (ih (r0 + 1) _ ?_) ?_).congr fun p q => ?_
      · intro r h1 h2 h3
        rw [one.i]
        exact h r (by omega) (by omega) h3
      · rw [rowBits_congr one.mem one.i]
        exact rowBits_disjoint s x0 y0 r0 k
      · rw [rowBits_congr one.mem one.i]
        exact rowBits_split s x0 y0 r0 k p q
    · next hge =>
      refine (Drawn.none s).congr fun p q => ?_
      have hp := p.isLt
      have : ¬(y0 + r0 ≤ p.val ∧ p.val < y0 + r0 + (k + 1) ∧ x0 ≤ q.val ∧ q.val < x0 + 8) := by omega
      rw [rowBits, decide_eq_false this, Bool.false_and]

/-- The outer loop when a row that is not clipped lies outside memory: the rows before the first such row `f` are drawn,
and `MemoryBounds(I + f)` is raised (`60_exceptions.md` R162). -/
theorem drawRows_raises (x0 y0 k r0 f : Nat) (s : State) (h0 : r0 ≤ f) (h1 : f < r0 + k) (h2 : y0 + f < Config.rows)
    (h3 : 0xFFF < s.i.toNat + f) (h4 : ∀ r, r0 ≤ r → r < f → s.i.toNat + r ≤ 0xFFF) :
    ∃ u, Drawn s u (rowBits s x0 y0 r0 (f - r0)) ∧
      drawRows x0 y0 (List.range' r0 k) s = u.raise (.memoryBounds (s.i.toNat + f)) := by
  induction k generalizing r0 s with
  | zero => omega
  | succ k ih =>
    rw [List.range'_succ, drawRows, dif_pos (show y0 + r0 < Config.rows by omega)]
    by_cases hf : f = r0
    · subst hf
      have e : s.memRead (spriteAddress s f) = .error (.memoryBounds (s.i.toNat + f)) := State.memRead_of_gt h3
      rw [e]
      refine ⟨s, (Drawn.none s).congr fun p q => ?_, rfl⟩
      have : ¬(y0 + f ≤ p.val ∧ p.val < y0 + f + (f - f) ∧ x0 ≤ q.val ∧ q.val < x0 + 8) := by omega
      rw [rowBits, decide_eq_false this, Bool.false_and]
    · rw [State.memRead_of_le (s := s) (a := spriteAddress s r0) (h4 r0 (Nat.le_refl _) (by omega))]
      have one := drawn_row s x0 y0 r0 (show y0 + r0 < Config.rows by omega)
      obtain ⟨u, hu, e⟩ := ih (r0 + 1)
        (drawColumns ⟨y0 + r0, by omega⟩ x0 (s.mem.get (spriteAddress s r0)) (List.range 8) s) (by omega) (by omega)
        (by rw [one.i]; exact h3) (fun r ha hb => by rw [one.i]; exact h4 r (by omega) hb)
      refine ⟨u, ?_, by rw [one.i] at e; exact e⟩
      have hk : f - r0 = (f - (r0 + 1)) + 1 := by omega
      rw [rowBits_congr one.mem one.i] at hu
      refine (one.trans hu (rowBits_disjoint s x0 y0 r0 _)).congr fun p q => ?_
      rw [hk]
      exact rowBits_split s x0 y0 r0 _ p q

/-! ### A draw does not look at sound_timer -/

theorem drawPixel_setSound (r : Fin Config.rows) (c : Fin Config.columns) (s : State) (b : Byte) :
    drawPixel r c (s.setSound b) = (drawPixel r c s).setSound b := by
  unfold drawPixel State.noteCollision
  simp only [State.pixel_setSound]
  split <;> simp [*] <;> rfl

theorem drawColumns_setSound (row : Fin Config.rows) (x0 : Nat) (y : Byte) (l : List Nat) (s : State) (b : Byte) :
    drawColumns row x0 y l (s.setSound b) = (drawColumns row x0 y l s).setSound b := by
  induction l generalizing s with
  | nil => rfl
  | cons c l ih =>
    unfold drawColumns
    split
    · rw [← ih]
      split
      · rw [drawPixel_setSound]
      · rfl
    · rfl

theorem drawRows_setSound (x0 y0 : Nat) (l : List Nat) (s : State) (b : Byte) :
    drawRows x0 y0 l (s.setSound b) = (drawRows x0 y0 l s).setSound b := by
  induction l generalizing s with
  | nil => rfl
  | cons r l ih =>
    unfold drawRows
    split
    · rw [show (s.setSound b).memRead (spriteAddress (s.setSound b) r) = s.memRead (spriteAddress s r) from rfl]
      split
      · rw [← ih, drawColumns_setSound]
      · rfl
    · rfl

end Sys2Proof.Machine
end

