-- ==== Sys2Proof/Laws/Exec.lean ====
section
/-! SUPPORT. What each arm of `exec` answers, and the cases of one step: provers cite these and unfold no meaning. -/

namespace Sys2Proof.Machine

/-! ### One equation per instruction -/

theorem exec_cls (s : State) : exec .cls s = .next s.clearPixels := rfl

theorem exec_ret_cons {s : State} {a : Word} {rest : List Word} (h : s.stack = a :: rest) :
    exec .ret s = .next { s with pc := a, stack := rest } := by
  rcases s.pop_cases with ⟨top, r, hs, e⟩ | ⟨hs, _⟩
  · obtain ⟨rfl, rfl⟩ := List.cons.inj (h.symm.trans hs)
    simp [exec, execRet, e, State.setPc]
  · simp [h] at hs

theorem exec_ret_nil {s : State} (h : s.stack = []) : exec .ret s = .next (s.raise .stackUnderflow) := by
  rcases s.pop_cases with ⟨top, r, hs, _⟩ | ⟨_, e⟩
  · simp [h] at hs
  · simp [exec, execRet, e]

theorem exec_jp (nnn : BitVec 12) (s : State) : exec (.jp nnn) s = .next (s.setPc (zext16 nnn)) := rfl

theorem exec_call (nnn : BitVec 12) (s : State) :
    exec (.call nnn) s = .next { s with stack := s.pc :: s.stack, pc := zext16 nnn } := rfl

theorem exec_seVxNn (x : VReg) (nn : Byte) (s : State) :
    exec (.seVxNn x nn) s = .next (if s.readV x = nn then s.skipNext else s) := rfl

theorem exec_ldVxNn (x : VReg) (nn : Byte) (s : State) : exec (.ldVxNn x nn) s = .next (s.writeV x nn) := rfl

theorem exec_addVxNn (x : VReg) (nn : Byte) (s : State) :
    exec (.addVxNn x nn) s = .next (s.writeV x (s.readV x + nn)) := rfl

theorem exec_ldINnn (nnn : BitVec 12) (s : State) : exec (.ldINnn nnn) s = .next (s.setI (zext16 nnn)) := rfl

theorem exec_drwVxVyN (x y : VReg) (n : BitVec 4) (s : State) : exec (.drwVxVyN x y n) s =
    .next (drawRows (startColumn s x) (startRow s y) (List.range n.toNat) s.clearCollision) := rfl

theorem exec_skpVx_key {s : State} {x : VReg} {k : Key} (h : k.val = (s.readV x).toNat) :
    exec (.skpVx x) s = .next (if s.keyHeld k then s.skipNext else s) := by
  rcases keyOperand_cases s x with ⟨k', hk, e⟩ | ⟨hk, _⟩
  · have : k' = k := Fin.ext (hk.trans h.symm)
    simp [exec, execSkpVx, e, this]
  · have := k.isLt
    omega

theorem exec_skpVx_raise {s : State} {x : VReg} (h : 15 < (s.readV x).toNat) :
    exec (.skpVx x) s = .next (s.raise (.keyIndex (s.readV x))) := by
  rcases keyOperand_cases s x with ⟨k', hk, _⟩ | ⟨_, e⟩
  · have := k'.isLt
    omega
  · simp [exec, execSkpVx, e]

theorem exec_sknpVx_key {s : State} {x : VReg} {k : Key} (h : k.val = (s.readV x).toNat) :
    exec (.sknpVx x) s = .next (if s.keyHeld k then s else s.skipNext) := by
  rcases keyOperand_cases s x with ⟨k', hk, e⟩ | ⟨hk, _⟩
  · have : k' = k := Fin.ext (hk.trans h.symm)
    simp [exec, execSknpVx, e, this]
  · have := k.isLt
    omega

theorem exec_sknpVx_raise {s : State} {x : VReg} (h : 15 < (s.readV x).toNat) :
    exec (.sknpVx x) s = .next (s.raise (.keyIndex (s.readV x))) := by
  rcases keyOperand_cases s x with ⟨k', hk, _⟩ | ⟨_, e⟩
  · have := k'.isLt
    omega
  · simp [exec, execSknpVx, e]

theorem exec_ldVxK (x : VReg) (s : State) : exec (.ldVxK x) s = .next (s.suspend x) := rfl

theorem exec_ldDtVx (x : VReg) (s : State) : exec (.ldDtVx x) s = .next (s.setDelay (s.readV x)) := rfl

theorem exec_ldStVx (x : VReg) (s : State) : exec (.ldStVx x) s = .next (s.setSound (s.readV x)) := rfl

theorem exec_ldVxDt (x : VReg) (s : State) : exec (.ldVxDt x) s = .next (s.writeV x s.delayTimer) := rfl

theorem exec_unknownOpcode (w : Word) (s : State) : exec (.unknownOpcode w) s = .next s := rfl

/-! ### `DRW` -/

theorem drawnBit_eq_rowBits (s : State) (x y : VReg) (n : BitVec 4) :
    drawnBit s x y n = rowBits s.clearCollision (startColumn s x) (startRow s y) 0 n.toNat := by
  funext p q
  simp [drawnBit, rowBits, State.clearCollision, startRow_eq, startColumn_eq, spriteBit_eq]

/-- A draw whose visible rows lie in memory lays its bits on the display, from VF = 0. -/
theorem exec_drw_drawn {s : State} {x y : VReg} {n : BitVec 4} (h : SpriteInMemory s y n) :
    ∃ t, exec (.drwVxVyN x y n) s = .next t ∧ Drawn s.clearCollision t (drawnBit s x y n) := by
  refine ⟨_, exec_drwVxVyN x y n s, ?_⟩
  rw [drawnBit_eq_rowBits, List.range_eq_range']
  exact drawn_drawRows _ _ _ 0 _ fun r _ hr hv => h r (by omega) hv

/-- A draw whose first visible row outside memory is `f` raises `MemoryBounds(I + f)` after drawing the rows before it. -/
theorem exec_drw_raises {s : State} {x y : VReg} {n : BitVec 4} {f : Nat} (h1 : f < n.toNat)
    (h2 : (s.readV y).toNat % 32 + f < 32) (h3 : 0xFFF < s.i.toNat + f)
    (h4 : ∀ r, r < f → s.i.toNat + r ≤ 0xFFF) :
    ∃ u, Drawn s.clearCollision u (rowBits s.clearCollision (startColumn s x) (startRow s y) 0 f) ∧
      exec (.drwVxVyN x y n) s = .next (u.raise (.memoryBounds (s.i.toNat + f))) := by
  obtain ⟨u, hu, e⟩ := drawRows_raises (startColumn s x) (startRow s y) n.toNat 0 f s.clearCollision (Nat.zero_le _)
    (by omega) h2 h3 fun r _ hr => h4 r hr
  refine ⟨u, hu, ?_⟩
  rw [exec_drwVxVyN, List.range_eq_range']
  exact congrArg _ e

/-- The bits of a draw depend on its coordinates, I and memory only. -/
theorem drawnBit_congr {s t : State} {x y : VReg} (n : BitVec 4) (hx : t.readV x = s.readV x)
    (hy : t.readV y = s.readV y) (hi : t.i = s.i) (hm : t.mem = s.mem) : drawnBit t x y n = drawnBit s x y n := by
  funext p q
  unfold drawnBit
  rw [hx, hy, hi, hm]

/-- Either every visible row lies in memory, or there is a first one that does not. -/
theorem spriteInMemory_or_first (s : State) (y : VReg) (n : BitVec 4) : SpriteInMemory s y n ∨
    ∃ f, f < n.toNat ∧ (s.readV y).toNat % 32 + f < 32 ∧ 0xFFF < s.i.toNat + f ∧
      ∀ r, r < f → s.i.toNat + r ≤ 0xFFF := by
  by_cases h : SpriteInMemory s y n
  · exact .inl h
  · refine .inr ?_
    unfold SpriteInMemory at h
    push Not at h
    obtain ⟨r, h1, h2, h3⟩ := h
    refine ⟨0x1000 - s.i.toNat, by omega, by omega, by omega, fun q hq => by omega⟩

/-- All that a draw can do to the elements it does not draw: nothing, or record a fault. -/
theorem exec_drw_rest (s : State) (x y : VReg) (n : BitVec 4) : ∃ t, exec (.drwVxVyN x y n) s = .next t ∧
    t = { s with v := t.v, fb := t.fb, fault := t.fault } ∧ (∀ r, r ≠ vf → t.readV r = s.readV r) := by
  rcases spriteInMemory_or_first s y n with h | ⟨f, h1, h2, h3, h4⟩
  · obtain ⟨t, e, d⟩ := exec_drw_drawn (x := x) h
    refine ⟨t, e, ?_, fun r hr => (d.others r hr).trans (State.readV_writeV_other s hr 0)⟩
    rw [d.rest]; rfl
  · obtain ⟨u, d, e⟩ := exec_drw_raises (x := x) h1 h2 h3 h4
    refine ⟨_, e, ?_, fun r hr => (d.others r hr).trans (State.readV_writeV_other s hr 0)⟩
    rw [State.raise, d.rest]; rfl

/-! ### Inversion: what a next state of an instruction can be -/

theorem exec_drw_cases {s t : State} {x y : VReg} {n : BitVec 4} (e : exec (.drwVxVyN x y n) s = .next t) :
    t = { s with v := t.v, fb := t.fb, fault := t.fault } ∧ ∀ r, r ≠ vf → t.readV r = s.readV r := by
  obtain ⟨u, e', h⟩ := exec_drw_rest s x y n
  rw [e] at e'
  injection e' with e'
  exact e' ▸ h

theorem exec_ret_cases {s t : State} (e : exec .ret s = .next t) :
    (∃ a rest, s.stack = a :: rest ∧ t = { s with pc := a, stack := rest }) ∨
    (s.stack = [] ∧ t = s.raise .stackUnderflow) := by
  cases h : s.stack with
  | nil =>
    rw [exec_ret_nil h] at e
    injection e with e
    exact .inr ⟨rfl, e.symm⟩
  | cons a rest =>
    rw [exec_ret_cons h] at e
    injection e with e
    exact .inl ⟨a, rest, rfl, e.symm⟩

theorem exec_skp_cases {s t : State} {x : VReg} (e : exec (.skpVx x) s = .next t) :
    (∃ k : Key, k.val = (s.readV x).toNat ∧ t = if s.keyHeld k then s.skipNext else s) ∨
    (15 < (s.readV x).toNat ∧ t = s.raise (.keyIndex (s.readV x))) := by
  rcases keyOperand_cases s x with ⟨k, hk, _⟩ | ⟨hk, _⟩
  · rw [exec_skpVx_key hk] at e
    injection e with e
    exact .inl ⟨k, hk, e.symm⟩
  · rw [exec_skpVx_raise hk] at e
    injection e with e
    exact .inr ⟨hk, e.symm⟩

theorem exec_sknp_cases {s t : State} {x : VReg} (e : exec (.sknpVx x) s = .next t) :
    (∃ k : Key, k.val = (s.readV x).toNat ∧ t = if s.keyHeld k then s else s.skipNext) ∨
    (15 < (s.readV x).toNat ∧ t = s.raise (.keyIndex (s.readV x))) := by
  rcases keyOperand_cases s x with ⟨k, hk, _⟩ | ⟨hk, _⟩
  · rw [exec_sknpVx_key hk] at e
    injection e with e
    exact .inl ⟨k, hk, e.symm⟩
  · rw [exec_sknpVx_raise hk] at e
    injection e with e
    exact .inr ⟨hk, e.symm⟩

/-- No instruction looks at sound_timer: with another value of it, the same next state but for sound_timer. -/
theorem exec_setSound {i : Instr} {s t : State} (b : Byte) (h : exec i s = .next t) :
    ∃ c, exec i (s.setSound b) = .next (t.setSound c) := by
  cases i with
  | drwVxVyN x y n =>
    injection h with h
    subst h
    exact ⟨b, congrArg Host.Outcome.next (drawRows_setSound _ _ _ s.clearCollision b)⟩
  | skpVx x =>
    refine ⟨b, ?_⟩
    rcases exec_skp_cases h with ⟨k, hk, rfl⟩ | ⟨hk, rfl⟩
    · rw [exec_skpVx_key (k := k) (by simpa using hk), State.keyHeld_setSound]
      split <;> rfl
    · rw [exec_skpVx_raise (by simpa using hk)]
      rfl
  | sknpVx x =>
    refine ⟨b, ?_⟩
    rcases exec_sknp_cases h with ⟨k, hk, rfl⟩ | ⟨hk, rfl⟩
    · rw [exec_sknpVx_key (k := k) (by simpa using hk), State.keyHeld_setSound]
      split <;> rfl
    · rw [exec_sknpVx_raise (by simpa using hk)]
      rfl
  | ret =>
    refine ⟨b, ?_⟩
    rcases exec_ret_cases h with ⟨a, r, hs, rfl⟩ | ⟨hs, rfl⟩
    · rw [exec_ret_cons (a := a) (rest := r) (by simpa using hs)]
      rfl
    · rw [exec_ret_nil (by simpa using hs)]
      rfl
  | seVxNn x n =>
    refine ⟨b, ?_⟩
    rw [exec_seVxNn] at h ⊢
    injection h with h
    subst h
    rw [State.readV_setSound]
    split <;> rfl
  | ldStVx x => injection h with h; subst h; exact ⟨s.readV x, rfl⟩
  | cls | jp | call | ldVxNn | addVxNn | ldINnn | ldVxK | ldDtVx | ldVxDt | unknownOpcode =>
    injection h with h; subst h; exact ⟨b, rfl⟩

/-! ### The step -/

/-- Every instruction answers a next state. -/
theorem exec_total (i : Instr) (s : State) : ∃ t, exec i s = .next t := by
  cases i with
  | ret =>
    cases h : s.stack with
    | nil => exact ⟨_, exec_ret_nil h⟩
    | cons a rest => exact ⟨_, exec_ret_cons h⟩
  | skpVx x =>
    rcases keyOperand_cases s x with ⟨k, hk, _⟩ | ⟨hk, _⟩
    · exact ⟨_, exec_skpVx_key hk⟩
    · exact ⟨_, exec_skpVx_raise hk⟩
  | sknpVx x =>
    rcases keyOperand_cases s x with ⟨k, hk, _⟩ | ⟨hk, _⟩
    · exact ⟨_, exec_sknpVx_key hk⟩
    · exact ⟨_, exec_sknpVx_raise hk⟩
  | cls | jp | call | seVxNn | ldVxNn | addVxNn | ldINnn | drwVxVyN | ldVxK | ldDtVx | ldStVx | ldVxDt
  | unknownOpcode => exact ⟨_, rfl⟩

/-- All that a step can do (`40_cycle.md` R90): nothing in the faulted or the suspended state; the fault of the fetch; or the
fetched instruction on the advanced pc, and the end of the cycle. -/
theorem step_cases (s : State) :
    (s.fault ≠ none ∧ step s = .next s) ∨
    (s.fault = none ∧ s.waitingForKey = true ∧ step s = .next s) ∨
    (s.running ∧ ∃ f, s.fetch = .error f ∧ step s = .next (s.raise f)) ∨
    (s.running ∧ ∃ op t, s.fetch = .ok op ∧ exec (decodeWord op) s.advancePc = .next t ∧ step s = .next t.endCycle) := by
  cases hf : s.fault with
  | some f => exact .inl ⟨by simp, by simp [step, hf]⟩
  | none =>
    cases hw : s.waitingForKey with
    | true => exact .inr (.inl ⟨rfl, rfl, by simp [step, hf, hw]⟩)
    | false =>
      cases he : s.fetch with
      | error f => exact .inr (.inr (.inl ⟨⟨hf, hw⟩, f, rfl, by simp [step, hf, hw, he]⟩))
      | ok op =>
        obtain ⟨t, ht⟩ := exec_total (decodeWord op) s.advancePc
        exact .inr (.inr (.inr ⟨⟨hf, hw⟩, op, t, rfl, ht, by simp [step, hf, hw, he, ht]⟩))

/-- A step of a machine that fetches `op`. -/
theorem step_of_fetch {s : State} {op : Word} (h : s.running) (hf : s.fetch = .ok op) :
    step s = endCycle (exec (decodeWord op) s.advancePc) := by
  simp [step, h.1, h.2, hf]

theorem step_of_fetch_error {s : State} {f : Fault} (h : s.running) (hf : s.fetch = .error f) :
    step s = .next (s.raise f) := by
  simp [step, h.1, h.2, hf]

/-- Every step answers a next state. -/
theorem step_total (s : State) : ∃ t, step s = .next t := by
  rcases step_cases s with ⟨_, e⟩ | ⟨_, _, e⟩ | ⟨_, f, _, e⟩ | ⟨_, _, t, _, _, e⟩
  · exact ⟨_, e⟩
  · exact ⟨_, e⟩
  · exact ⟨_, e⟩
  · exact ⟨_, e⟩

/-- An executed cycle that does not fault: its instruction answered a state without a fault, which then ticks. -/
theorem executedCycle_cases {s t : State} {i : Instr} (h : ExecutedCycle s t) (hc : s.current = some i) :
    ∃ u, exec i s.advancePc = .next u ∧ u.fault = none ∧ t = u.tick := by
  obtain ⟨r, e, hf⟩ := h
  cases hfe : s.fetch with
  | error f => simp [State.current, hfe] at hc
  | ok op =>
    simp only [State.current, hfe, Option.some.injEq] at hc
    rw [step_of_fetch r hfe, hc] at e
    obtain ⟨u, hu⟩ := exec_total i s.advancePc
    rw [hu, endCycle_next] at e
    injection e with e
    have hu0 : u.fault = none := by rw [← e] at hf; simpa using hf
    exact ⟨u, hu, hu0, by rw [← e, State.endCycle_of_none hu0]⟩

/-- A cycle that executes without a fault has fetched. -/
theorem executedCycle_current {s t : State} (h : ExecutedCycle s t) : ∃ i, s.current = some i := by
  obtain ⟨r, e, hf⟩ := h
  cases hfe : s.fetch with
  | error f =>
    rw [step_of_fetch_error r hfe] at e
    injection e with e
    rw [← e] at hf
    simp at hf
  | ok op => exact ⟨_, by simp [State.current, hfe]; rfl⟩

/-! ### The placed instruction -/

theorem State.fetchAddress_le (s : State) : s.fetchAddress.toNat ≤ 0xFFE := by
  unfold State.fetchAddress
  split
  · assumption
  · decide

/-- The step after `withFetchWord` fetches exactly the placed word. -/
theorem State.fetch_withFetchWord {s : State} (hm : s.mem.wf) (nbits w : Nat) :
    (s.withFetchWord nbits w).fetch = .ok (tableWord nbits w) := by
  have ha := s.fetchAddress_le
  have hw : (s.mem.put s.fetchAddress.toNat (highByte (tableWord nbits w))).wf :=
    Memory.wf_put hm (by simp only [Config.memorySize]; omega) _
  rw [State.fetch_of_le (by simpa [State.withFetchWord] using ha)]
  simp only [State.withFetchWord]
  rw [Memory.get_put_other _ (by omega), Memory.get_put_same hm, Memory.get_put_same hw, wordOfBytes_bytes]

/-- The step after `withFetchWord` runs exactly the placed instruction. -/
theorem step_withFetchWord {s : State} (hm : s.mem.wf) (nbits w : Nat) : step (s.withFetchWord nbits w) =
    endCycle (exec (decodeWord (tableWord nbits w)) (s.withFetchWord nbits w).advancePc) :=
  step_of_fetch ⟨rfl, rfl⟩ (State.fetch_withFetchWord hm nbits w)

end Sys2Proof.Machine
end

