-- ==== Sys2Proof/Laws/Events.lean ====
section
/-! SUPPORT. What each event of the host can answer, and one more step of a run. -/

namespace Sys2Proof.Machine

/-- All that `LoadROM` can answer (`20_memory.md` R60, R61; `60_exceptions.md` R167). -/
theorem loadRom_cases (bytes : List Byte) (s : State) :
    (Config.romMax < bytes.length ∧ loadRom bytes s = .error .romTooLong) ∨
    (bytes.length ≤ Config.romMax ∧ s.fault ≠ none ∧ loadRom bytes s = .ok s) ∨
    (bytes.length ≤ Config.romMax ∧ s.fault = none ∧
      loadRom bytes s = .ok { s with mem := s.mem.putAll Config.programStart bytes }) := by
  unfold loadRom
  rcases Nat.lt_or_ge Config.romMax bytes.length with h | h
  · exact .inl ⟨h, by simp [h]⟩
  · cases hf : s.fault with
    | some f => exact .inr (.inl ⟨h, by simp, by simp [Nat.not_lt.2 h]⟩)
    | none => exact .inr (.inr ⟨h, rfl, by simp [Nat.not_lt.2 h]⟩)

/-- A ROM that fits keeps the canonical form of memory. -/
theorem Memory.wf_putAll_rom {m : Memory} (hm : m.wf) {bytes : List Byte} (h : bytes.length ≤ Config.romMax) :
    (m.putAll Config.programStart bytes).wf :=
  Memory.wf_putAll hm (by simp only [Config.programStart, Config.romMax, Config.memorySize] at *; omega)

/-- All that an event can answer when it answers a next session. -/
theorem deliver_cases {e : Event} {m m' : Session} (h : deliver e m = .next m') :
    (e = .reset ∧ m' = Session.reset) ∨
    (∃ bytes, e = .loadRom bytes ∧ m'.started = m.started ∧
      (m'.core = m.core ∨ (m.core.fault = none ∧ m.started = false ∧ loadRom bytes m.core = .ok m'.core))) ∨
    (∃ k, e = .inputRefresh k ∧ m' = ⟨inputRefresh k m.core, m.started⟩) ∨
    (e = .cycle ∧ m'.started = true ∧ step m.core = .next m'.core) := by
  cases e with
  | reset => exact .inl ⟨rfl, by simpa [deliver] using h.symm⟩
  | loadRom bytes =>
    refine .inr (.inl ⟨bytes, rfl, ?_⟩)
    simp only [deliver, deliverLoad] at h
    cases hf : m.core.fault with
    | some f =>
      simp [hf] at h
      subst h
      exact ⟨rfl, .inl rfl⟩
    | none =>
      cases hs : m.started with
      | true => simp [hf, hs] at h
      | false =>
        cases hl : loadRom bytes m.core with
        | error _ => simp [hf, hs, hl] at h; subst h; exact ⟨hs, .inl rfl⟩
        | ok t => simp [hf, hs, hl] at h; subst h; exact ⟨rfl, .inr ⟨rfl, rfl, rfl⟩⟩
  | inputRefresh k => exact .inr (.inr (.inl ⟨k, rfl, by simpa [deliver] using h.symm⟩))
  | cycle =>
    refine .inr (.inr (.inr ⟨rfl, ?_⟩))
    simp only [deliver, deliverCycle] at h
    obtain ⟨t, ht⟩ := step_total m.core
    simp only [ht, Host.Outcome.next.injEq] at h
    subst h
    exact ⟨rfl, ht⟩

/-- One more step of a run. -/
theorem core_run_succ {s t : State} (k : Nat) (h : step s = .next t) :
    Sys2Proof.core.run (k + 1) s = Sys2Proof.core.run k t := by
  have h' : Sys2Proof.core.step s = .next t := h
  simp [Host.Core.run, h']

end Sys2Proof.Machine
end

