-- ==== Sys2Proof/Laws/PerInstr.lean ====
section
/-! SUPPORT. Statements per instruction. Family `EncodeGroup`: the top nibble of an instruction's word is its group
(`30_encoding.md` R74, R75). -/

namespace Sys2Proof.Laws.EncodeGroup

/-- The group of an instruction, the first digit of its pattern (`30_encoding.md` R74). -/
def group : Instr → Nat
  | .cls | .ret => 0x0
  | .jp _ => 0x1
  | .call _ => 0x2
  | .seVxNn _ _ => 0x3
  | .ldVxNn _ _ => 0x6
  | .addVxNn _ _ => 0x7
  | .ldINnn _ => 0xA
  | .drwVxVyN _ _ _ => 0xD
  | .skpVx _ | .sknpVx _ => 0xE
  | .ldVxK _ | .ldDtVx _ | .ldStVx _ | .ldVxDt _ => 0xF
  | .unknownOpcode w => w.toNat / 0x1000

/-- The top nibble of the encoded word is the instruction's group. -/
def Statement (i : Instr) : Prop := (fieldTop (encode i)).toNat = group i

theorem cls : Statement .cls := by unfold Statement; decide
theorem ret : Statement .ret := by unfold Statement; decide
theorem jp (nnn : BitVec 12) : Statement (.jp nnn) := fieldTop_encodeNnn (by decide) nnn
theorem call (nnn : BitVec 12) : Statement (.call nnn) := fieldTop_encodeNnn (by decide) nnn
theorem seVxNn (x : VReg) (nn : Byte) : Statement (.seVxNn x nn) := fieldTop_encodeXnn (by decide) x nn
theorem ldVxNn (x : VReg) (nn : Byte) : Statement (.ldVxNn x nn) := fieldTop_encodeXnn (by decide) x nn
theorem addVxNn (x : VReg) (nn : Byte) : Statement (.addVxNn x nn) := fieldTop_encodeXnn (by decide) x nn
theorem ldINnn (nnn : BitVec 12) : Statement (.ldINnn nnn) := fieldTop_encodeNnn (by decide) nnn
theorem drwVxVyN (x y : VReg) (n : BitVec 4) : Statement (.drwVxVyN x y n) := fieldTop_encodeXyn (by decide) x y n
theorem skpVx (x : VReg) : Statement (.skpVx x) := fieldTop_encodeXnn (by decide) x _
theorem sknpVx (x : VReg) : Statement (.sknpVx x) := fieldTop_encodeXnn (by decide) x _
theorem ldVxK (x : VReg) : Statement (.ldVxK x) := fieldTop_encodeXnn (by decide) x _
theorem ldDtVx (x : VReg) : Statement (.ldDtVx x) := fieldTop_encodeXnn (by decide) x _
theorem ldStVx (x : VReg) : Statement (.ldStVx x) := fieldTop_encodeXnn (by decide) x _
theorem ldVxDt (x : VReg) : Statement (.ldVxDt x) := fieldTop_encodeXnn (by decide) x _
theorem unknownOpcode (w : Word) : Statement (.unknownOpcode w) := fieldTop_toNat w

end Sys2Proof.Laws.EncodeGroup
end

