-- ==== Sys2Proof/Tests/Slice0.lean ====
section
/-! SUPPORT. The model's own tests: the well-formedness check, words written out from the spec's encodings, one step from
the spec's test vectors (`spec/95_test_vectors.md`, named by their ids), and a witness for the hypotheses of every
obligation. Expected results come from the spec. -/

namespace Sys2Proof.Tests

open Sys2Proof Sys2Proof.Machine

/-! ### Helpers -/

/-- The state after one step. -/
def after (s : State) : State :=
  match step s with
  | .next t => t
  | .fault _ => s
  | .refused _ => s

/-- The state after one instruction. -/
def execAfter (i : Instr) (s : State) : State :=
  match exec i s with
  | .next t => t
  | .fault _ => s
  | .refused _ => s

theorem step_after (s : State) : step s = .next (after s) := by
  obtain ⟨t, h⟩ := step_total s
  simp [after, h]

theorem exec_execAfter (i : Instr) (s : State) : exec i s = .next (execAfter i s) := by
  obtain ⟨t, h⟩ := exec_total i s
  simp [execAfter, h]

/-- A state with register r holding b. -/
def withV (r : VReg) (b : Byte) (s : State) : State := s.writeV r b

/-- A state with the opcode w placed at pc. -/
def code (w : Nat) (s : State) : State := s.withFetchWord 16 w

/-- A state with the byte b at address a. -/
def poke (a : Nat) (b : Byte) (s : State) : State := { s with mem := s.mem.put a b }

/-- A state with the listed pixels toggled. -/
def light (ps : List (Fin Config.rows × Fin Config.columns)) (s : State) : State :=
  ps.foldl (fun t p => t.flipPixel p.1 p.2) s

/-- The pixels that are 1, as (row, column). -/
def lit (s : State) : List (Nat × Nat) :=
  s.fb.toList.zipIdx.flatMap fun row => row.1.toList.zipIdx.filterMap fun pixel =>
    if pixel.1 then some (row.2, pixel.2) else none

/-- Key states with exactly the listed keys held. -/
def held (ks : List Nat) : Vector Bool 16 := Vector.ofFn fun j => ks.contains j.val

/-- A state waiting for a key, the destination being V1 (vector T40-7). -/
def waiting : State := { State.reset with waitingForKey := true, keyRegister := 1, pc := 0x202, delayTimer := 5 }

/-- A faulted state (vector T40-12). -/
def faulted : State := { State.reset with fault := some .stackUnderflow, pc := 0x202, delayTimer := 5 }

/-! ### Well-formedness (`30_encoding.md` R74, R77) -/

theorem test_wf_refuses_cls_as_unknown : (Instr.unknownOpcode 0x00E0).wellFormed = false := by decide
theorem test_wf_refuses_draw_as_unknown : (Instr.unknownOpcode 0xDAB5).wellFormed = false := by decide
theorem test_wf_refuses_timer_read_as_unknown : (Instr.unknownOpcode 0xFF07).wellFormed = false := by decide
theorem test_wf_accepts_unknown : (Instr.unknownOpcode 0x01E0).wellFormed = true := by decide
theorem test_wf_accepts_draw : (Instr.drwVxVyN 15 15 15).wellFormed = true := by decide

/-! ### Decoding: one word of each instruction, bit by bit from the formats of `30_encoding.md` R72 and R74 -/

theorem test_decode_cls : decodeTableWord 16 0b0000000011100000 = some .cls := by decide
theorem test_decode_ret : decodeTableWord 16 0b0000000011101110 = some .ret := by decide
theorem test_decode_jp : decodeTableWord 16 0b0001101010111100 = some (.jp 0xABC) := by decide
theorem test_decode_call : decodeTableWord 16 0b0010101010111100 = some (.call 0xABC) := by decide
theorem test_decode_se : decodeTableWord 16 0b0011101000010010 = some (.seVxNn 10 0x12) := by decide
theorem test_decode_ld_imm : decodeTableWord 16 0b0110101000010010 = some (.ldVxNn 10 0x12) := by decide
theorem test_decode_add : decodeTableWord 16 0b0111101000010010 = some (.addVxNn 10 0x12) := by decide
theorem test_decode_ld_i : decodeTableWord 16 0b1010101010111100 = some (.ldINnn 0xABC) := by decide
theorem test_decode_drw : decodeTableWord 16 0b1101101010110101 = some (.drwVxVyN 10 11 5) := by decide
theorem test_decode_skp : decodeTableWord 16 0b1110101010011110 = some (.skpVx 10) := by decide
theorem test_decode_sknp : decodeTableWord 16 0b1110101010100001 = some (.sknpVx 10) := by decide
theorem test_decode_ld_k : decodeTableWord 16 0b1111101000001010 = some (.ldVxK 10) := by decide
theorem test_decode_ld_dt : decodeTableWord 16 0b1111101000010101 = some (.ldDtVx 10) := by decide
theorem test_decode_ld_st : decodeTableWord 16 0b1111101000011000 = some (.ldStVx 10) := by decide
theorem test_decode_read_dt : decodeTableWord 16 0b1111101000000111 = some (.ldVxDt 10) := by decide

/-- The unknown words of the decode table of `95_test_vectors.md` Part 2. -/
theorem test_decode_unknown :
    decodeWord 0x0000 = .unknownOpcode 0x0000 ∧ decodeWord 0x00E1 = .unknownOpcode 0x00E1 ∧
    decodeWord 0x01E0 = .unknownOpcode 0x01E0 ∧ decodeWord 0x0FEE = .unknownOpcode 0x0FEE ∧
    decodeWord 0x0123 = .unknownOpcode 0x0123 ∧ decodeWord 0x4A12 = .unknownOpcode 0x4A12 ∧
    decodeWord 0x5AB0 = .unknownOpcode 0x5AB0 ∧ decodeWord 0x8AB4 = .unknownOpcode 0x8AB4 ∧
    decodeWord 0x9AB0 = .unknownOpcode 0x9AB0 ∧ decodeWord 0xBABC = .unknownOpcode 0xBABC ∧
    decodeWord 0xCA12 = .unknownOpcode 0xCA12 ∧ decodeWord 0xEA9F = .unknownOpcode 0xEA9F ∧
    decodeWord 0xEAA0 = .unknownOpcode 0xEAA0 ∧ decodeWord 0xFA1E = .unknownOpcode 0xFA1E ∧
    decodeWord 0xFA29 = .unknownOpcode 0xFA29 ∧ decodeWord 0xFA33 = .unknownOpcode 0xFA33 ∧
    decodeWord 0xFA55 = .unknownOpcode 0xFA55 ∧ decodeWord 0xFA65 = .unknownOpcode 0xFA65 ∧
    decodeWord 0xFFFF = .unknownOpcode 0xFFFF := by decide

/-- The field extraction example of `95_test_vectors.md` Part 2. -/
theorem test_fields : fieldTop 0xD7A3 = 0xD ∧ fieldX 0xD7A3 = 7 ∧ fieldY 0xD7A3 = 0xA ∧ fieldN 0xD7A3 = 3 ∧
    fieldNn 0xD7A3 = 0xA3 ∧ fieldNnn 0xD7A3 = 0x7A3 := by decide

/-- The notation of the listings of `95_test_vectors.md` Part 3. -/
theorem test_assembly : assembly (decodeWord 0xF207) = "LD V2, DT" ∧ assembly (decodeWord 0x120E) = "JP 0x20E" ∧
    assembly (decodeWord 0x8014) = "DW 0x8014" := ⟨rfl, rfl, rfl⟩

theorem test_bytes_big_endian : decodeBytes [0x12, 0x34, 0x56] = .ok (.jp 0x234, [0x56]) := rfl
theorem test_bytes_too_few : decodeBytes [0x12] = .error .tooFewBytes := rfl

/-! ### One step, from the vectors of `95_test_vectors.md` -/

theorem test_T43_1_cls : lit (after (code 0x00E0 (light [(0, 0), (5, 9), (31, 63)] (withV 15 1 State.reset)))) = [] ∧
    (after (code 0x00E0 (withV 15 1 State.reset))).readV vf = 1 := by decide

theorem test_T41_6_ret : let t := after (code 0x00EE { State.reset with stack := [0x302, 0x202], pc := 0x400 })
    t.pc = 0x302 ∧ t.stack = [0x202] := by decide

theorem test_T41_7_ret_underflow : let t := after (code 0x00EE { State.reset with delayTimer := 5 })
    t.fault = some .stackUnderflow ∧ t.pc = 0x202 ∧ t.stack = [] ∧ t.delayTimer = 5 := by decide

theorem test_T40_8_jp_big_endian : (after (code 0x1234 State.reset)).pc = 0x234 := by decide

theorem test_T41_5_call : let t := after (code 0x2400 { State.reset with stack := [0x202], pc := 0x300 })
    t.stack = [0x302, 0x202] ∧ t.pc = 0x400 := by decide

theorem test_T41_14_bounded_call : let t := callWith (some 1) 0x200 { State.reset with stack := [0x202], pc := 0x202 }
    t.fault = some .stackOverflow ∧ t.stack = [0x202] ∧ t.pc = 0x202 := by decide

theorem test_T41_8_se_taken : (after (code 0x3210 (withV 2 0x10 State.reset))).pc = 0x204 := by decide
theorem test_T41_9_se_not_taken : (after (code 0x3210 (withV 2 0x11 State.reset))).pc = 0x202 := by decide

theorem test_T42_2_ld_vf : let t := after (code 0x6F07 State.reset)
    t.readV vf = 7 ∧ t.readV 0 = 0 ∧ t.pc = 0x202 := by decide

theorem test_T42_3_add_wraps : let t := after (code 0x7001 (withV 0 0xFF State.reset))
    t.readV 0 = 0 ∧ t.readV vf = 0 ∧ t.pc = 0x202 := by decide

theorem test_T42_7_add_vf : (after (code 0x7F01 (withV 15 0xFF State.reset))).readV vf = 0 := by decide

theorem test_T42_10_ld_i : (after (code 0xAFFF State.reset)).i = 0x0FFF := by decide

theorem test_T43_4_drw_wraps_start_and_clips :
    let t := after (code 0xD012 (poke 0x300 0xFF (poke 0x301 0xFF (withV 0 0x7E (withV 1 0x3F { State.reset with i := 0x300 })))))
    lit t = [(31, 62), (31, 63)] ∧ t.readV vf = 0 ∧ t.fault = none := by decide

theorem test_T43_15_drw_collision_is_kept :
    let t := after (code 0xD012 (light [(0, 0)] (poke 0x300 0x80 (poke 0x301 0x80 { State.reset with i := 0x300 }))))
    lit t = [(1, 0)] ∧ t.readV vf = 1 := by decide

theorem test_T44_1_skp : (after (code 0xE19E (withV 1 7 { State.reset with keys := held [7] }))).pc = 0x204 := by decide

theorem test_T44_5_skp_key_index : let t := after (code 0xE19E (withV 1 0x10 { State.reset with delayTimer := 5 }))
    t.fault = some (.keyIndex 16) ∧ t.pc = 0x202 ∧ t.delayTimer = 5 := by decide

theorem test_T44_4_sknp : (after (code 0xE1A1 (withV 1 7 State.reset))).pc = 0x204 := by decide

theorem test_T44_6_sknp_key_index : (after (code 0xE1A1 (withV 1 0xFF State.reset))).fault = some (.keyIndex 255) := by decide

theorem test_T44_8_ld_k : let t := after (code 0xF10A { State.reset with delayTimer := 3 })
    t.waitingForKey = true ∧ t.keyRegister = 1 ∧ t.pc = 0x202 ∧ t.delayTimer = 2 ∧ t.readV 1 = 0 := by decide

theorem test_T45_1_ld_dt : (after (code 0xF015 (withV 0 5 State.reset))).delayTimer = 4 := by decide
theorem test_T45_10_ld_dt_ticks_sound : let t := after (code 0xF015 (withV 0 5 { State.reset with soundTimer := 7 }))
    t.delayTimer = 4 ∧ t.soundTimer = 6 := by decide

theorem test_T45_5_ld_st : let t := after (code 0xF018 (withV 0 5 State.reset))
    t.soundTimer = 4 ∧ soundActive t = true := by decide
theorem test_T45_6_ld_st_one : soundActive (after (code 0xF018 (withV 0 1 State.reset))) = false := by decide

theorem test_T45_7_read_dt : let t := after (code 0xF207 { State.reset with delayTimer := 2 })
    t.readV 2 = 2 ∧ t.delayTimer = 1 := by decide

theorem test_T40_2_unknown :
    let t := after (code 0x8014 (withV 0 1 (withV 1 2 { State.reset with delayTimer := 5 })))
    t.pc = 0x202 ∧ t.delayTimer = 4 ∧ t.readV 0 = 1 ∧ t.readV 1 = 2 ∧ t.readV vf = 0 := by decide

theorem test_T40_4_unknown_01E0 : let t := after (code 0x01E0 (light [(0, 0)] State.reset))
    t.pc = 0x202 ∧ lit t = [(0, 0)] := by decide

/-! ### The cycle and the events -/

theorem test_T40_7_suspended : after waiting = waiting := by decide
theorem test_T40_12_faulted : after faulted = faulted := by decide
theorem test_T40_9_last_word : let t := after (code 0x6007 { State.reset with pc := 0xFFE })
    t.readV 0 = 7 ∧ t.pc = 0x1000 ∧ t.fault = none := by decide
theorem test_T40_10_fetch_faults : let t := after { State.reset with pc := 0xFFF, delayTimer := 5 }
    t.fault = some (.memoryBounds 0x1000) ∧ t.pc = 0xFFF ∧ t.delayTimer = 5 := by decide
theorem test_T41_11_fetch_above : (after { State.reset with pc := 0x1002 }).fault = some (.memoryBounds 0x1002) := by decide

theorem test_T44_11_refresh_resolves : let t := inputRefreshWith (Equiv.refl Key) (held [7]) waiting
    t.readV 1 = 7 ∧ t.waitingForKey = false ∧ t.keyHeld 7 = true ∧ t.keyHeld 3 = false ∧ t.pc = 0x202 := by decide
theorem test_T44_12_order_decides :
    (inputRefreshWith (Equiv.refl Key) (held [3, 9]) waiting).readV 1 = 3 ∧
    (inputRefreshWith (Equiv.swap 0 9) (held [3, 9]) waiting).readV 1 = 9 := by decide
theorem test_T44_16_refresh_when_faulted : inputRefresh (held [1]) faulted = faulted := rfl

theorem test_T20_6_second_load : (match loadRom [0xAA, 0xBB, 0xCC] State.reset with
    | .ok s => (match loadRom [0x11] s with
      | .ok t => t.mem
      | .error _ => [])
    | .error _ => []) = [(0x200, 0x11), (0x201, 0xBB), (0x202, 0xCC)] := by decide

/-- The fault codes of `60_exceptions.md` R165. -/
theorem test_fault_codes : [none, some .stackUnderflow, some (.memoryBounds 0), some (.keyIndex 0), some .stackOverflow].map
    faultCode = [0, 1, 2, 3, 4] ∧ faultValue (some (.keyIndex 16)) = some 16 := by decide

/-! ### Witnesses: states and operands that meet the hypotheses of the obligations, named after them -/

theorem witness_DecodeOfEncodeIsTheInstruction : (Instr.drwVxVyN 15 15 15).wellFormed = true ∧
    (Instr.unknownOpcode 0xFFFF).wellFormed = true := by decide

/-- One word for each of the 15 clauses, its operand bits all ones. -/
theorem witness_OpcodeMapSelectsTheInstruction :
    (0x00E0 : Word) &&& 0xFFFF = 0x00E0 ∧ (0x00EE : Word) &&& 0xFFFF = 0x00EE ∧ (0x1FFF : Word) &&& 0xF000 = 0x1000 ∧
    (0x2FFF : Word) &&& 0xF000 = 0x2000 ∧ (0x3FFF : Word) &&& 0xF000 = 0x3000 ∧ (0x6FFF : Word) &&& 0xF000 = 0x6000 ∧
    (0x7FFF : Word) &&& 0xF000 = 0x7000 ∧ (0xAFFF : Word) &&& 0xF000 = 0xA000 ∧ (0xDFFF : Word) &&& 0xF000 = 0xD000 ∧
    (0xEF9E : Word) &&& 0xF0FF = 0xE09E ∧ (0xEFA1 : Word) &&& 0xF0FF = 0xE0A1 ∧ (0xFF0A : Word) &&& 0xF0FF = 0xF00A ∧
    (0xFF15 : Word) &&& 0xF0FF = 0xF015 ∧ (0xFF18 : Word) &&& 0xF0FF = 0xF018 ∧ (0xFF07 : Word) &&& 0xF0FF = 0xF007 := by
  decide

/-- A word that one pattern covers, and a word that none covers. -/
theorem witness_PatternsAreDisjointAndDecodingIsTotal :
    (⟨0xF0FF, 0xE09E⟩ : OpcodeRow) ∈ opcodeRows ∧ (⟨0xF0FF, 0xE09E⟩ : OpcodeRow).covers 0xEF9E = true ∧
    ∀ row ∈ opcodeRows, row.covers 0x0FEE = false := by decide

theorem witness_StepRunsTheDecodedInstruction :
    faulted.fault ≠ none ∧
    (waiting.fault = none ∧ waiting.waitingForKey = true) ∧
    (State.running { State.reset with pc := 0xFFF } ∧
      State.fetch { State.reset with pc := 0xFFF } = .error (.memoryBounds 0x1000)) ∧
    (State.running (code 0x6007 { State.reset with pc := 0xFFE }) ∧
      (code 0x6007 { State.reset with pc := 0xFFE }).memRead 0xFFE = .ok 0x60 ∧
      (code 0x6007 { State.reset with pc := 0xFFE }).memRead (0xFFE + 1) = .ok 0x07 ∧
      decodeBytes [0x60, 0x07] = .ok (.ldVxNn 0 7, []) ∧ (Instr.ldVxNn 0 7).wellFormed = true) :=
  ⟨by decide, by decide, ⟨by decide, rfl⟩, by decide, rfl, rfl, rfl, rfl⟩

/-- The three ranges of pc, at their boundary values. -/
theorem witness_FetchReadsBigEndianOrRaises :
    (∀ p : Word, State.running { State.reset with pc := p }) ∧ (0xFFE : Word).toNat ≤ 0xFFE ∧ (0xFFF : Word).toNat = 0xFFF ∧
    0xFFF < (0x1000 : Word).toNat ∧ 0xFFF < (0xFFFF : Word).toNat := ⟨fun _ => ⟨rfl, rfl⟩, by decide⟩

theorem executed (s : State) (h : s.running) (hf : (after s).fault = none) : ExecutedCycle s (after s) :=
  ⟨h, step_after s, hf⟩

/-- An executed cycle of each of the two timer writes, and of another instruction; a suspended one; one that faults. -/
theorem witness_EveryExecutedCycleTicksBothTimers :
    (ExecutedCycle (code 0xF015 State.reset) (after (code 0xF015 State.reset)) ∧
      (code 0xF015 State.reset).current = some (.ldDtVx 0)) ∧
    (ExecutedCycle (code 0xFF18 State.reset) (after (code 0xFF18 State.reset)) ∧
      (code 0xFF18 State.reset).current = some (.ldStVx 15)) ∧
    (ExecutedCycle (code 0x00E0 State.reset) (after (code 0x00E0 State.reset)) ∧
      (code 0x00E0 State.reset).current = some .cls) ∧
    (step waiting = .next waiting ∧ waiting.waitingForKey = true) ∧
    (step (code 0x00EE State.reset) = .next (after (code 0x00EE State.reset)) ∧
      (after (code 0x00EE State.reset)).fault ≠ none) :=
  ⟨⟨executed _ (by decide) (by decide), by decide⟩, ⟨executed _ (by decide) (by decide), by decide⟩,
    ⟨executed _ (by decide) (by decide), by decide⟩, ⟨rfl, rfl⟩, step_after _, by decide⟩

theorem witness_UnknownOpcodeOnlyAdvancesAndTicks : (code 0x0FEE State.reset).running ∧
    (code 0x0FEE State.reset).fetch = .ok 0x0FEE ∧ isKnownWord 0x0FEE = false := ⟨by decide, rfl, by decide⟩

/-- An executed cycle at the last address that can be fetched, with a skip from it (vector T41-11). -/
theorem witness_PcAfterAnExecutedCycle :
    ExecutedCycle (code 0x3000 { State.reset with pc := 0xFFE }) (after (code 0x3000 { State.reset with pc := 0xFFE })) ∧
    (code 0x3000 { State.reset with pc := 0xFFE }).current = some (.seVxNn 0 0) ∧
    (after (code 0x3000 { State.reset with pc := 0xFFE })).pc = 0x1002 :=
  ⟨executed _ (by decide) (by decide), by decide, by decide⟩

theorem witness_RetPopsThePcOrUnderflows :
    State.stack { State.reset with stack := [0x202] } = 0x202 :: [] ∧ State.reset.stack = [] := ⟨rfl, rfl⟩

theorem witness_UnderflowingReturnEndsTheCycleUnticked : (code 0x00EE State.reset).running ∧
    (code 0x00EE State.reset).fetch = .ok 0x00EE ∧ (code 0x00EE State.reset).stack = [] ∧
    step (code 0x00EE State.reset) = .next (after (code 0x00EE State.reset)) ∧
    (after (code 0x00EE State.reset)).fault = some .stackUnderflow := ⟨by decide, rfl, rfl, step_after _, by decide⟩

/-- Depth 1 with no entry, and with one. -/
theorem witness_CallPushesThePcAndJumps :
    State.reset.stack.length < 1 ∧ 1 ≤ (State.stack { State.reset with stack := [0x202] }).length := by decide

theorem witness_LdVxNnLoadsTheImmediate : (0 : VReg) ≠ 15 := by decide
theorem witness_AddVxNnWrapsWithoutCarry : (15 : VReg) ≠ 0 := by decide
theorem witness_LdILoadsTheAddress : exec (.ldINnn 0xFFF) State.reset = .next (execAfter (.ldINnn 0xFFF) State.reset) ∧
    (execAfter (.ldINnn 0xFFF) State.reset).i ≠ State.reset.i := ⟨exec_execAfter _ _, by decide⟩

/-- All 15 rows end at 0xFFF; and a row outside memory that is clipped (vector T43-13). -/
theorem witness_SpriteInMemory :
    SpriteInMemory { State.reset with i := 0xFF1 } 1 15 ∧
    SpriteInMemory (withV 1 0x1F { State.reset with i := 0xFFF }) 1 2 := by
  constructor
  · intro r h1 h2
    have e : (15 : BitVec 4).toNat = 15 := rfl
    have e' : (State.i { State.reset with i := 0xFF1 }).toNat = 0xFF1 := rfl
    omega
  · intro r h1 h2
    have e : ((withV 1 0x1F { State.reset with i := 0xFFF }).readV 1).toNat % 32 = 31 := by decide
    have e' : (withV 1 0x1F { State.reset with i := 0xFFF }).i.toNat = 0xFFF := rfl
    rw [e] at h2
    omega

/-- A one-row sprite at address 0xFFF, drawn at (0, 0). -/
def lastByte : State := poke 0xFFF 0x80 { State.reset with i := 0xFFF }

/-- A draw that hits a lit pixel, and one that hits none. -/
theorem witness_DrwXorsTheVisibleSpriteBits :
    SpriteInMemory (light [(0, 0)] lastByte) 1 1 ∧
    (drawnBit (light [(0, 0)] lastByte) 0 1 1 0 0 = true ∧ (light [(0, 0)] lastByte).pixel 0 0 = true) ∧
    SpriteInMemory State.reset 1 0 ∧
    (¬∃ p q, drawnBit State.reset 0 1 0 p q = true ∧ State.reset.pixel p q = true) := by
  refine ⟨?_, by decide, ?_, ?_⟩
  · intro r h1 h2
    have e : (1 : BitVec 4).toNat = 1 := rfl
    have e' : (light [(0, 0)] lastByte).i.toNat = 0xFFF := rfl
    omega
  · intro r h1 h2
    exact absurd h1 (Nat.not_lt_zero r)
  · rintro ⟨p, q, _, h⟩
    simp [State.reset, State.pixel] at h

/-- The first bad row is row 1 on display row 31 (vector T43-12 moved down), and row 0 with I just above memory. -/
theorem witness_DrwRaisesAtTheFirstRowOutsideMemory :
    (1 < (2 : BitVec 4).toNat ∧ ((withV 1 30 lastByte).readV 1).toNat % 32 + 1 < 32 ∧ 0xFFF < (withV 1 30 lastByte).i.toNat + 1 ∧
      ∀ r, r < 1 → (withV 1 30 lastByte).i.toNat + r ≤ 0xFFF) ∧
    (0 < (1 : BitVec 4).toNat ∧ (State.reset.readV 1).toNat % 32 + 0 < 32 ∧ 0xFFF < (0x1000 : Word).toNat + 0 ∧
      ∀ r, r < 0 → (0x1000 : Word).toNat + r ≤ 0xFFF) := by decide

/-- The last two bytes of memory at row 30; and row bytes at columns 60 to 63. -/
theorem witness_SpritesClipAtTheEdges :
    (((withV 1 30 { State.reset with i := 0xFFE }).readV 1).toNat % 32 = 30 ∧
      (withV 1 30 { State.reset with i := 0xFFE }).i.toNat + 1 ≤ 0xFFF) ∧
    (((withV 0 0x3C lastByte).readV 0).toNat % 64 = 60 ∧ SpriteInMemory (withV 0 0x3C lastByte) 1 1 ∧
      0 < (1 : BitVec 4).toNat ∧ (0 : Fin Config.rows).val = ((withV 0 0x3C lastByte).readV 1).toNat % 32 + 0 ∧
      (withV 0 0x3C lastByte).memRead (0xFFF + 0) = .ok 0x80 ∧ 60 ≤ (60 : Fin Config.columns).val) := by
  refine ⟨by decide, by decide, ?_, by decide, by decide, rfl, by decide⟩
  intro r h1 h2
  have e : (1 : BitVec 4).toNat = 1 := rfl
  have e' : (withV 0 0x3C lastByte).i.toNat = 0xFFF := rfl
  omega

/-- A sprite bit on an unlit pixel, and on a lit one. -/
theorem witness_DoubleDrawRestoresThePixels : (0 : VReg) ≠ vf ∧ (1 : VReg) ≠ vf ∧
    (drawnBit lastByte 0 1 1 0 0 = true ∧ lastByte.pixel 0 0 = false) ∧
    (drawnBit (light [(0, 0)] lastByte) 0 1 1 0 0 = true ∧ (light [(0, 0)] lastByte).pixel 0 0 = true) := by decide

/-- Key index 15 and key index 16, for both skips. -/
theorem witness_SkpSkipsExactlyWhenHeld : ((withV 1 15 State.reset).readV 1).toNat = (15 : Key).val ∧
    15 < ((withV 1 16 State.reset).readV 1).toNat := by decide
theorem witness_SknpSkipsExactlyWhenNotHeld : ((withV 1 0 State.reset).readV 1).toNat = (0 : Key).val ∧
    15 < ((withV 1 255 State.reset).readV 1).toNat := by decide

theorem witness_LdVxKEntersTheWait : (code 0xFF0A State.reset).running ∧
    (code 0xFF0A State.reset).current = some (.ldVxK 15) := by decide

theorem witness_InputRefreshOverwritesAllKeys : faulted.fault ≠ none ∧ waiting.fault = none ∧ (0 : VReg) ≠ waiting.keyRegister ∧
    (State.reset.fault = none ∧ State.reset.waitingForKey = false) := by decide

theorem witness_HeldKeyResolvesTheWait : waiting.fault = none ∧ waiting.waitingForKey = true ∧
    (∃ j : Key, (held [15])[j.val] = true) ∧ (∀ j : Key, (held [])[j.val] = false) := by decide

theorem witness_SingleHeldKeyWinsInEveryOrder : (held [15])[(15 : Key).val] = true ∧
    (∀ j' : Key, j' ≠ 15 → (held [15])[j'.val] = false) ∧ waiting.fault = none ∧ waiting.waitingForKey = true := by decide

theorem witness_WaitFreezesAllButTheKeys : waiting.fault = none ∧ waiting.waitingForKey = true ∧
    ∀ e ∈ [Event.cycle, .inputRefresh (held []), .cycle],
      e = .cycle ∨ ∃ k : Vector Bool 16, e = .inputRefresh k ∧ ∀ j : Key, k[j.val] = false := by
  refine ⟨rfl, rfl, fun e he => ?_⟩
  simp only [List.mem_cons, List.not_mem_nil, or_false] at he
  rcases he with rfl | rfl | rfl
  · exact .inl rfl
  · exact .inr ⟨_, rfl, by decide⟩
  · exact .inl rfl

/-- RUN to WAIT, RUN to RUN, and a cycle in WAIT. -/
theorem witness_KeyWaitMachineTransitions :
    (ExecutedCycle (code 0xF10A State.reset) (after (code 0xF10A State.reset)) ∧
      (code 0xF10A State.reset).current = some (.ldVxK 1)) ∧
    (ExecutedCycle (code 0x6007 State.reset) (after (code 0x6007 State.reset)) ∧
      (code 0x6007 State.reset).current = some (.ldVxNn 0 7)) ∧
    (waiting.fault = none ∧ waiting.waitingForKey = true ∧ step waiting = .next waiting) ∧ State.reset.running :=
  ⟨⟨executed _ (by decide) (by decide), by decide⟩, ⟨executed _ (by decide) (by decide), by decide⟩,
    ⟨rfl, rfl, rfl⟩, by decide⟩

theorem witness_LdDtVxWritesTheDelayTimer : State.reset.fault = none := rfl
theorem witness_LdStVxWritesTheSoundTimer : (withV 0 1 State.reset).fault = none ∧
    1 < ((withV 0 2 State.reset).readV 0).toNat := by decide
theorem witness_LdVxDtReadsTheDelayTimer : State.reset.fault = none ∧ (0 : VReg) ≠ 15 ∧
    exec (.ldStVx 0) State.reset = .next (execAfter (.ldStVx 0) State.reset) := ⟨rfl, by decide, exec_execAfter _ _⟩

/-- `LD DT, V0` (or `LD ST, V0`) at 0x200 and `LD V1, K` at 0x202, with V0 = 0xFF. -/
def timed (w : Nat) : State := poke 0x202 0xF1 (poke 0x203 0x0A (code w (withV 0 0xFF State.reset)))

/-- One executed cycle, one suspended cycle and one refresh after the write of a timer. -/
theorem timerRun_timed {writes : Instr → Prop} {u : State} (hr : u.running) (hf : (after u).fault = none)
    (hw : (after u).waitingForKey = true) (hc : u.current = some (.ldVxK 1)) (hn : ¬writes (.ldVxK 1)) :
    TimerRun writes 1 u (inputRefresh (held []) (after u)) := by
  refine .executed (executed u hr hf) (fun i hi => ?_) ?_
  · rw [hc] at hi
    cases hi
    exact hn
  · refine .suspended hw ?_ (.refreshed (held []) (.done _))
    simp [step, hf, hw]

theorem witness_DelayTimerCountsExecutedCycles :
    (timed 0xF015).current = some (.ldDtVx 0) ∧ ExecutedCycle (timed 0xF015) (after (timed 0xF015)) ∧
    TimerRun (fun i => ∃ y, i = .ldDtVx y) 1 (after (timed 0xF015)) (inputRefresh (held []) (after (after (timed 0xF015)))) :=
  ⟨by decide, executed _ (by decide) (by decide),
    timerRun_timed (by decide) (by decide) (by decide) (by decide) (by simp)⟩

theorem witness_SoundLineLastsItsCount :
    (timed 0xF018).current = some (.ldStVx 0) ∧ ExecutedCycle (timed 0xF018) (after (timed 0xF018)) ∧
    TimerRun (fun i => ∃ y, i = .ldStVx y) 1 (after (timed 0xF018)) (inputRefresh (held []) (after (after (timed 0xF018)))) :=
  ⟨by decide, executed _ (by decide) (by decide),
    timerRun_timed (by decide) (by decide) (by decide) (by decide) (by simp)⟩

theorem witness_SoundTimerIsInvisibleToTheProgram : step (timed 0xF018) = .next (after (timed 0xF018)) := step_after _

theorem witness_CycleNeverWritesMemoryOrKeys : step State.reset = .next (after State.reset) ∧
    (step waiting = .next waiting ∧ waiting.waitingForKey = true) ∧
    (step faulted = .next faulted ∧ faulted.fault = some .stackUnderflow) := ⟨step_after _, ⟨rfl, rfl⟩, rfl, rfl⟩

/-- A change of each element by an instruction that is named for it. -/
theorem witness_OnlyTheNamedInstructionsWrite :
    (∀ i s, exec i s = .next (execAfter i s)) ∧
    (execAfter (.ldVxNn 15 7) State.reset).readV 15 ≠ State.reset.readV 15 ∧
    (execAfter (.ldINnn 0xFFF) State.reset).i ≠ State.reset.i ∧
    (execAfter (.jp 0xFFF) State.reset).pc ≠ State.reset.pc ∧
    (execAfter (.call 0x300) State.reset).stack ≠ State.reset.stack ∧
    (execAfter (.ldDtVx 0) (withV 0 5 State.reset)).delayTimer ≠ (withV 0 5 State.reset).delayTimer ∧
    (execAfter (.ldStVx 0) (withV 0 5 State.reset)).soundTimer ≠ (withV 0 5 State.reset).soundTimer ∧
    (execAfter .cls (light [(31, 63)] State.reset)).pixel 31 63 ≠ (light [(31, 63)] State.reset).pixel 31 63 ∧
    (execAfter (.ldVxK 0) State.reset).waitingForKey ≠ State.reset.waitingForKey ∧
    (execAfter .ret State.reset).fault ≠ State.reset.fault ∧
    (execAfter (.skpVx 1) (withV 1 16 State.reset)).fault ≠ (withV 1 16 State.reset).fault :=
  ⟨exec_execAfter, by decide⟩

/-- A session after its first `Cycle()`. -/
def startedSession : Session := ⟨State.reset, true⟩

theorem witness_MemoryIsFixedOnceRunning : startedSession.started = true ∧ Event.cycle ≠ .reset ∧
    deliver (.inputRefresh (held [1])) startedSession = .next ⟨inputRefresh (held [1]) State.reset, true⟩ ∧
    startedSession.core.fault = none := ⟨rfl, by decide, rfl, rfl⟩

/-- A fault of each of the three kinds, from a state without one. -/
theorem witness_EachInstructionRaisesOnlyItsOwnFault :
    (∀ i s, exec i s = .next (execAfter i s)) ∧ State.reset.fault = none ∧
    (execAfter .ret State.reset).fault = some .stackUnderflow ∧
    (lastByte.fault = none ∧ (execAfter (.drwVxVyN 0 1 2) lastByte).fault = some (.memoryBounds 0x1000)) ∧
    ((withV 1 16 State.reset).fault = none ∧ (execAfter (.sknpVx 1) (withV 1 16 State.reset)).fault = some (.keyIndex 16)) :=
  ⟨exec_execAfter, by decide⟩

theorem witness_FaultedStateIsAbsorbing : faulted.fault ≠ none ∧
    ∀ e ∈ [Event.cycle, .inputRefresh (held [1]), .loadRom [0x12]], e ≠ .reset := by decide

/-- The largest ROM, with its last byte and the first address after it. -/
theorem witness_LoadRomCopiesFromTheProgramStart : (List.replicate 3584 (0xAA : Byte)).length ≤ 3584 ∧
    State.reset.fault = none ∧ State.reset.mem.wf ∧ 3583 < (List.replicate 3584 (0xAA : Byte)).length ∧
    0x200 + (List.replicate 3584 (0xAA : Byte)).length ≤ 0x1000 := by
  simp only [List.length_replicate]
  exact ⟨by decide, rfl, Memory.wf_nil, by decide, by decide⟩

theorem witness_OversizedRomIsRefusedWhole : 3584 < (List.replicate 3585 (0xAA : Byte)).length ∧
    Session.reset.started = false := by
  simp only [List.length_replicate]
  exact ⟨by decide, rfl⟩

/-- The last font byte, the first byte above the font, the last byte of memory. -/
theorem witness_ResetLeavesTheStatedValues : 79 < 80 ∧ 0x50 ≤ 0x50 ∧ 0x50 ≤ 0xFFF ∧ 0xFFF ≤ 0xFFF := by decide

theorem witness_UnloadedMemoryRunsToTheBoundsFault : 1792 ≤ 1792 := by decide

/-- `JP` to itself at 0x200, and at the last address that can be fetched. -/
theorem witness_EndedWellStaysEndedWell : (code 0x1200 State.reset).EndedWell ∧
    (code 0x1FFE { State.reset with pc := 0xFFE }).EndedWell := ⟨⟨by decide, by decide, rfl⟩, by decide, by decide, rfl⟩

/-- A state with I, pc and the return address at the bounds of the invariant. -/
def atTheBounds : State := { State.reset with i := 0xFFF, pc := 0x1002, stack := [0x1000] }

theorem witness_EveryStepKeepsTheInvariant : atTheBounds.Inv ∧ step atTheBounds = .next (after atTheBounds) ∧
    (after atTheBounds).fault = some (.memoryBounds 0x1002) := by
  refine ⟨⟨Nat.le_refl _, Nat.le_refl _, by simp [atTheBounds], Memory.wf_nil, ?_⟩, step_after _, by decide⟩
  intro f hf
  simp [atTheBounds, State.reset] at hf

theorem witness_RefreshAndLoadKeepTheInvariant : atTheBounds.Inv ∧
    loadRom [0x12, 0x00] atTheBounds = .ok { atTheBounds with mem := [(0x200, 0x12)] } :=
  ⟨witness_EveryStepKeepsTheInvariant.1, rfl⟩

theorem witness_EveryReachableSessionMeetsTheInvariant : Reachable ⟨after State.reset, true⟩ := by
  refine .event .cycle .reset ?_
  simp [deliver, deliverCycle, Session.reset, step_after]

end Sys2Proof.Tests
end

section
/-! PROOFS of the family "State" (`10_state.md`), first part: what one instruction does to the elements that the
statements about the whole state speak of: memory and keys, the fault record of a draw, pc, and sound_timer. -/

namespace Sys2Proof.Machine

/-! ### What no instruction writes -/

/-- Two states whose memory is the same list read the same byte at every address. -/
theorem State.memRead_congr {s t : State} (h : t.mem = s.mem) (a : Nat) : t.memRead a = s.memRead a := by
  simp [State.memRead, h]

/-- Two states with the same key states hold the same keys. -/
theorem State.keyHeld_congr {s t : State} (h : t.keys = s.keys) (k : Key) : t.keyHeld k = s.keyHeld k := by
  simp [State.keyHeld, h]

/-- No instruction stores to memory and none writes a key state (`20_memory.md` R54, `10_state.md` R34). -/
theorem exec_mem_keys {i : Instr} {s t : State} (e : exec i s = .next t) : t.mem = s.mem ∧ t.keys = s.keys := by
  cases i with
  | ret => rcases exec_ret_cases e with ⟨a, rest, _, rfl⟩ | ⟨_, rfl⟩ <;> exact ⟨rfl, rfl⟩
  | drwVxVyN x y n =>
    obtain ⟨h, _⟩ := exec_drw_cases e
    rw [h]; exact ⟨rfl, rfl⟩
  | seVxNn x nn => injection e with e; subst e; split <;> exact ⟨rfl, rfl⟩
  | skpVx x =>
    rcases exec_skp_cases e with ⟨k, _, rfl⟩ | ⟨_, rfl⟩
    · split <;> exact ⟨rfl, rfl⟩
    · exact ⟨rfl, rfl⟩
  | sknpVx x =>
    rcases exec_sknp_cases e with ⟨k, _, rfl⟩ | ⟨_, rfl⟩
    · split <;> exact ⟨rfl, rfl⟩
    · exact ⟨rfl, rfl⟩
  | cls | jp | call | ldVxNn | addVxNn | ldINnn | ldVxK | ldDtVx | ldStVx | ldVxDt | unknownOpcode =>
    injection e with e; subst e; exact ⟨rfl, rfl⟩

@[simp] theorem State.endCycle_keys (s : State) : s.endCycle.keys = s.keys := by rw [s.endCycle_eq]

@[simp] theorem State.endCycle_i (s : State) : s.endCycle.i = s.i := by rw [s.endCycle_eq]

@[simp] theorem State.endCycle_stack (s : State) : s.endCycle.stack = s.stack := by rw [s.endCycle_eq]

/-! ### The fault of a draw (`60_exceptions.md` R162) -/

/-- A draw keeps the fault record, or records the first address above 0xFFF that its rows reach. -/
theorem exec_drw_fault_cases {s t : State} {x y : VReg} {n : BitVec 4} (e : exec (.drwVxVyN x y n) s = .next t) :
    t.fault = s.fault ∨ ∃ f, f < n.toNat ∧ 0xFFF < s.i.toNat + f ∧ (∀ r, r < f → s.i.toNat + r ≤ 0xFFF) ∧
      t.fault = some (.memoryBounds (s.i.toNat + f)) := by
  rcases spriteInMemory_or_first s y n with h | ⟨f, h1, h2, h3, h4⟩
  · obtain ⟨u, e', d⟩ := exec_drw_drawn (x := x) h
    obtain rfl := Host.Outcome.next.inj (e.symm.trans e')
    rw [d.rest]; exact .inl rfl
  · obtain ⟨u, _, e'⟩ := exec_drw_raises (x := x) h1 h2 h3 h4
    obtain rfl := Host.Outcome.next.inj (e.symm.trans e')
    exact .inr ⟨f, h1, h3, h4, rfl⟩

/-! ### pc after an instruction (`10_state.md` R25) -/

/-- The one key that an operand names decides a test over all keys. -/
theorem exists_key_held_iff {s : State} {x : VReg} {k : Key} (hk : k.val = (s.readV x).toNat) (b : Bool) :
    (∃ j : Key, j.val = (s.readV x).toNat ∧ s.keyHeld j = b) ↔ s.keyHeld k = b := by
  constructor
  · rintro ⟨j, hj, h⟩
    obtain rfl : j = k := Fin.ext (hj.trans hk.symm)
    exact h
  · exact fun h => ⟨k, hk, h⟩

/-- A skip from the advanced pc ends four bytes after the instruction. -/
theorem advancePc_skipNext_pc (s : State) : s.advancePc.skipNext.pc = s.pc + 4 := by
  simp [BitVec.add_assoc]

/-- An instruction that raises no fault leaves pc where `nextPc` says. -/
theorem exec_advancePc_pc {i : Instr} {s t : State} (e : exec i s.advancePc = .next t) (hf : t.fault = none) :
    t.pc = nextPc i s := by
  cases i with
  | ret =>
    rcases exec_ret_cases e with ⟨a, rest, hs, rfl⟩ | ⟨_, rfl⟩
    · simp [nextPc, show s.stack = a :: rest from hs]
    · simp at hf
  | seVxNn x nn =>
    obtain rfl := Host.Outcome.next.inj e
    rw [apply_ite State.pc, advancePc_skipNext_pc]; rfl
  | drwVxVyN x y n =>
    obtain ⟨h, _⟩ := exec_drw_cases e
    rw [h]; rfl
  | skpVx x =>
    rcases exec_skp_cases e with ⟨k, hk, rfl⟩ | ⟨_, rfl⟩
    · simp only [nextPc, exists_key_held_iff (s := s) hk, apply_ite State.pc, advancePc_skipNext_pc]; rfl
    · simp at hf
  | sknpVx x =>
    rcases exec_sknp_cases e with ⟨k, hk, rfl⟩ | ⟨_, rfl⟩
    · simp only [nextPc, exists_key_held_iff (s := s) hk, apply_ite State.pc, advancePc_skipNext_pc]
      cases h : s.keyHeld k <;> simp [h]
    · simp at hf
  | cls | jp | call | ldVxNn | addVxNn | ldINnn | ldVxK | ldDtVx | ldStVx | ldVxDt | unknownOpcode =>
    obtain rfl := Host.Outcome.next.inj e
    rfl

/-! ### sound_timer (`10_state.md` R28) -/

/-- Writing sound_timer changes no other element. -/
theorem sameExcept_setSound (s : State) (b : Byte) : SameExcept [.soundTimer] s (s.setSound b) := by
  intro el h
  cases el with
  | soundTimer => simp at h
  | v | mem | keys => exact fun _ => rfl
  | fb => exact fun _ _ => rfl
  | i | pc | stack | delayTimer | waitingForKey | keyRegister | fault => rfl

/-- The end of a cycle carries a difference in sound_timer alone to a difference in sound_timer alone. -/
theorem endCycle_setSound (s : State) (b : Byte) : ∃ c, (s.setSound b).endCycle = s.endCycle.setSound c := by
  cases h : s.fault with
  | some f => exact ⟨b, by rw [State.endCycle_of_some (s := s.setSound b) h, State.endCycle_of_some h]⟩
  | none => exact ⟨decrement b, by rw [State.endCycle_of_none (s := s.setSound b) h, State.endCycle_of_none h]; rfl⟩

/-- A step from another value of sound_timer ends in the same state but for sound_timer. -/
theorem step_setSound {s t : State} (b : Byte) (e : step s = .next t) :
    ∃ c, step (s.setSound b) = .next (t.setSound c) := by
  rcases step_cases s with ⟨hf, e'⟩ | ⟨hf, hw, e'⟩ | ⟨hr, f, hfe, e'⟩ | ⟨hr, op, u, hfe, hx, e'⟩ <;>
    obtain rfl := Host.Outcome.next.inj (e.symm.trans e')
  · exact ⟨b, by simp [step, Option.isSome_iff_ne_none.2 hf]⟩
  · exact ⟨b, by simp [step, hf, hw]⟩
  · exact ⟨b, step_of_fetch_error (s := s.setSound b) hr ((State.fetch_congr rfl rfl).trans hfe)⟩
  · obtain ⟨c, hc⟩ := exec_setSound b hx
    obtain ⟨d, hd⟩ := endCycle_setSound u c
    refine ⟨d, ?_⟩
    rw [step_of_fetch (s := s.setSound b) hr ((State.fetch_congr rfl rfl).trans hfe), ← hd]
    exact congrArg endCycle hc

end Sys2Proof.Machine
end

section
/-! PROOFS of the family "State", second part: the invariant of reachable states (`10_state.md` R37), update by update,
then instruction by instruction, then event by event. -/

namespace Sys2Proof.Machine

/-! ### The invariant and the updates of the state -/

/-- The invariant speaks of I, pc, the stack, memory and the fault record only. -/
theorem State.Inv.congr {s t : State} (h : s.Inv) (hi : t.i = s.i) (hp : t.pc = s.pc) (hs : t.stack = s.stack)
    (hm : t.mem = s.mem) (hf : t.fault = s.fault) : t.Inv where
  i_le := hi ▸ h.i_le
  pc_le := hp ▸ h.pc_le
  stack_le := hs ▸ h.stack_le
  mem_wf := hm ▸ h.mem_wf
  fault_possible := hf ▸ h.fault_possible

theorem State.Inv.raise {s : State} (h : s.Inv) {f : Fault} (hf : f.possible) : (s.raise f).Inv where
  __ := h
  fault_possible := by rintro g ⟨⟩; exact hf

theorem State.Inv.setPc {s : State} (h : s.Inv) {a : Word} (ha : a.toNat ≤ 0x1002) : (s.setPc a).Inv where
  __ := h
  pc_le := ha

theorem State.Inv.setI {s : State} (h : s.Inv) {a : Word} (ha : a.toNat ≤ 0x0FFF) : (s.setI a).Inv where
  __ := h
  i_le := ha

theorem State.Inv.setStack {s : State} (h : s.Inv) {l : List Word} (hl : ∀ a ∈ l, a.toNat ≤ 0x1000) :
    State.Inv { s with stack := l } where
  __ := h
  stack_le := hl

theorem State.Inv.setMem {s : State} (h : s.Inv) {m : Memory} (hm : m.wf) : State.Inv { s with mem := m } where
  __ := h
  mem_wf := hm

/-- A draw touches the V registers, the pixels and the fault record only. -/
theorem State.Inv.drawn {s t : State} (h : s.Inv) (rest : t = { s with v := t.v, fb := t.fb, fault := t.fault })
    (hf : ∀ f, t.fault = some f → f.possible) : t.Inv := by
  rw [rest]
  exact { h with fault_possible := hf }

/-- The end of a cycle touches the timers only. -/
theorem State.Inv.endCycle {s : State} (h : s.Inv) : s.endCycle.Inv :=
  h.congr s.endCycle_i s.endCycle_pc s.endCycle_stack s.endCycle_mem s.endCycle_fault

/-- A taken skip, from a pc that the fetch has advanced. -/
theorem State.Inv.skipNext {s : State} (h : s.Inv) (hp : s.pc.toNat ≤ 0x1000) : s.skipNext.Inv :=
  h.setPc (a := s.pc + 2) (by bv_omega)

theorem zext16_toNat_le (nnn : BitVec 12) : (zext16 nnn).toNat ≤ 0x0FFF := by
  have := nnn.isLt
  simp only [zext16, BitVec.toNat_setWidth]
  omega

/-! ### One instruction -/

/-- A draw writes neither I, pc, the stack nor memory; the address it can record is 0x1000, the first one outside memory,
because its rows are consecutive and start at I, inside memory. -/
theorem exec_drw_keeps_inv {s t : State} {x y : VReg} {n : BitVec 4} (h : s.Inv)
    (e : exec (.drwVxVyN x y n) s = .next t) : t.Inv := by
  obtain ⟨rest, _⟩ := exec_drw_cases e
  refine h.drawn rest fun g hg => ?_
  rcases exec_drw_fault_cases e with hf | ⟨f, _, hgt, hle, hf⟩
  · exact h.fault_possible g (hf ▸ hg)
  · obtain rfl : Fault.memoryBounds (s.i.toNat + f) = g := Option.some.inj (hf.symm.trans hg)
    have hi := h.i_le
    have hlast := hle (f - 1) (by omega)
    exact ⟨by omega, by omega⟩

/-- Every instruction keeps the invariant when it starts, as in a cycle, at a pc that the fetch has advanced: at most
0x1000, so that a return address is at most 0x1000 and a taken skip ends at most at 0x1002. -/
theorem exec_keeps_inv {i : Instr} {s t : State} (h : s.Inv) (hp : s.pc.toNat ≤ 0x1000) (e : exec i s = .next t) :
    t.Inv := by
  cases i with
  | ret =>
    rcases exec_ret_cases e with ⟨a, rest, hs, rfl⟩ | ⟨_, rfl⟩
    · obtain ⟨ha, hrest⟩ : a.toNat ≤ 0x1000 ∧ ∀ b ∈ rest, b.toNat ≤ 0x1000 := by
        simpa [hs] using h.stack_le
      exact (h.setStack hrest).setPc (by omega)
    · exact h.raise trivial
  | jp nnn =>
    obtain rfl := Host.Outcome.next.inj e
    exact h.setPc ((zext16_toNat_le nnn).trans (by decide))
  | call nnn =>
    obtain rfl := Host.Outcome.next.inj e
    have hstack : ∀ a ∈ s.pc :: s.stack, a.toNat ≤ 0x1000 := List.forall_mem_cons.2 ⟨hp, h.stack_le⟩
    exact (h.setStack hstack).setPc ((zext16_toNat_le nnn).trans (by decide))
  | seVxNn x nn =>
    obtain rfl := Host.Outcome.next.inj e
    split
    · exact h.skipNext hp
    · exact h
  | ldINnn nnn =>
    obtain rfl := Host.Outcome.next.inj e
    exact h.setI (zext16_toNat_le nnn)
  | drwVxVyN x y n => exact exec_drw_keeps_inv h e
  | skpVx x =>
    rcases exec_skp_cases e with ⟨k, _, rfl⟩ | ⟨hv, rfl⟩
    · split
      · exact h.skipNext hp
      · exact h
    · exact h.raise hv
  | sknpVx x =>
    rcases exec_sknp_cases e with ⟨k, _, rfl⟩ | ⟨hv, rfl⟩
    · split
      · exact h
      · exact h.skipNext hp
    · exact h.raise hv
  | cls | ldVxNn | addVxNn | ldVxK | ldDtVx | ldStVx | ldVxDt | unknownOpcode =>
    obtain rfl := Host.Outcome.next.inj e
    exact h.congr rfl rfl rfl rfl rfl

/-! ### One event -/

/-- What a fetch can raise from a state of the invariant is an address from 0x1000 to 0x1002. -/
theorem fetch_error_possible {s : State} {f : Fault} (h : s.Inv) (e : s.fetch = .error f) : f.possible := by
  have hpc := h.pc_le
  rcases s.fetch_cases with ⟨_, e'⟩ | ⟨_, e'⟩ | ⟨hgt, e'⟩ <;> rw [e'] at e <;> cases e
  · exact ⟨by decide, by decide⟩
  · exact ⟨hgt, hpc⟩

theorem step_keeps_inv {s t : State} (h : s.Inv) (e : step s = .next t) : t.Inv := by
  rcases step_cases s with ⟨_, e'⟩ | ⟨_, _, e'⟩ | ⟨_, f, hf, e'⟩ | ⟨_, op, u, hf, hx, e'⟩ <;>
    obtain rfl := Host.Outcome.next.inj (e.symm.trans e')
  · exact h
  · exact h
  · exact h.raise (fetch_error_possible h hf)
  · have hpc : s.advancePc.pc.toNat ≤ 0x1000 := by
      have := State.pc_le_of_fetch hf
      rw [State.advancePc_pc]; bv_omega
    have hadvanced : s.advancePc.Inv := h.setPc (a := s.pc + 2) (hpc.trans (by decide))
    exact (exec_keeps_inv hadvanced hpc hx).endCycle

/-- A refresh writes keys, a V register and the wait only, whatever the order. -/
theorem inputRefreshWith_keeps_inv (order : Equiv.Perm Key) (k : Vector Bool 16) {s : State} (h : s.Inv) :
    (inputRefreshWith order k s).Inv := by
  rcases inputRefreshWith_cases order k s with ⟨_, e⟩ | ⟨_, _, e⟩ | ⟨_, _, j, _, e⟩ <;> rw [e]
  · exact h
  · exact h.congr rfl rfl rfl rfl rfl
  · exact h.congr rfl rfl rfl rfl rfl

theorem loadRom_keeps_inv {bytes : List Byte} {s t : State} (h : s.Inv) (e : loadRom bytes s = .ok t) : t.Inv := by
  rcases loadRom_cases bytes s with ⟨_, e'⟩ | ⟨_, _, e'⟩ | ⟨hlen, _, e'⟩ <;> rw [e'] at e <;> cases e
  · exact h
  · exact h.setMem (Memory.wf_putAll_rom h.mem_wf hlen)

theorem reset_inv : State.reset.Inv where
  i_le := by decide
  pc_le := by decide
  stack_le := by simp [State.reset]
  mem_wf := State.reset_mem_wf
  fault_possible := by simp [State.reset]

/-- Every event that answers a session keeps the invariant of its core. -/
theorem deliver_keeps_inv {e : Event} {m m' : Session} (h : m.core.Inv) (hd : deliver e m = .next m') :
    m'.core.Inv := by
  rcases deliver_cases hd with ⟨_, rfl⟩ | ⟨bytes, _, _, hcore | ⟨_, _, hload⟩⟩ | ⟨k, _, rfl⟩ | ⟨_, _, hstep⟩
  · exact reset_inv
  · exact hcore ▸ h
  · exact loadRom_keeps_inv h hload
  · exact inputRefreshWith_keeps_inv Config.keyOrder k h
  · exact step_keeps_inv h hstep

end Sys2Proof.Machine
end

section
/-! PROOFS of the family "State", third part: its obligations. -/

namespace Sys2Proof.Machine

/-- Settles O50: the cases of a step, each by the lemma on what it does to the invariant. -/
theorem everyStepKeepsTheInvariant : Obligations.EveryStepKeepsTheInvariant := by
  unfold Obligations.EveryStepKeepsTheInvariant
  exact fun _ _ h e => step_keeps_inv h e

/-- Settles O11: the tick leaves pc where the instruction left it. -/
theorem pcAfterAnExecutedCycle : Obligations.PcAfterAnExecutedCycle := by
  unfold Obligations.PcAfterAnExecutedCycle
  intro s t i h hi
  obtain ⟨u, hx, hf, rfl⟩ := executedCycle_cases h hi
  rw [State.tick_pc]
  exact exec_advancePc_pc hx hf

/-- Settles O38: the other run ends in the same state but for sound_timer. -/
theorem soundTimerIsInvisibleToTheProgram : Obligations.SoundTimerIsInvisibleToTheProgram := by
  unfold Obligations.SoundTimerIsInvisibleToTheProgram
  intro s t b e
  obtain ⟨c, hc⟩ := step_setSound b e
  exact ⟨t.setSound c, hc, sameExcept_setSound t c⟩

/-- Settles O39: a step of a faulted or a suspended machine is the identity, and neither the fetch's fault nor an
instruction writes memory or keys. -/
theorem cycleNeverWritesMemoryOrKeys : Obligations.CycleNeverWritesMemoryOrKeys := by
  unfold Obligations.CycleNeverWritesMemoryOrKeys
  intro s t e
  rcases step_cases s with ⟨_, e'⟩ | ⟨_, _, e'⟩ | ⟨⟨hf, hw⟩, f, _, e'⟩ | ⟨⟨hf, hw⟩, op, u, _, hx, e'⟩ <;>
    obtain rfl := Host.Outcome.next.inj (e.symm.trans e')
  · exact ⟨fun _ => rfl, fun _ => rfl, id, fun _ => id⟩
  · exact ⟨fun _ => rfl, fun _ => rfl, id, fun _ => id⟩
  · exact ⟨fun _ => rfl, fun _ => rfl, by simp [hw], by simp [hf]⟩
  · obtain ⟨hmem, hkeys⟩ := exec_mem_keys hx
    exact ⟨State.memRead_congr (u.endCycle_mem.trans hmem), State.keyHeld_congr (u.endCycle_keys.trans hkeys),
      by simp [hw], by simp [hf]⟩

/-- Settles O51. -/
theorem refreshAndLoadKeepTheInvariant : Obligations.RefreshAndLoadKeepTheInvariant := by
  unfold Obligations.RefreshAndLoadKeepTheInvariant
  exact ⟨fun order k _ h => inputRefreshWith_keeps_inv order k h, fun _ _ _ h e => loadRom_keeps_inv h e⟩

/-- Settles O52, by induction on the events that reach the session. -/
theorem everyReachableSessionMeetsTheInvariant : Obligations.EveryReachableSessionMeetsTheInvariant := by
  unfold Obligations.EveryReachableSessionMeetsTheInvariant
  intro m hm
  induction hm with
  | reset => exact reset_inv
  | event e _ hd ih => exact deliver_keeps_inv ih hd

/-- Settles O46: unlisted memory reads FONT below 0x050 and 0 above, and the other elements stand in `State.reset`. -/
theorem resetLeavesTheStatedValues : Obligations.ResetLeavesTheStatedValues := by
  unfold Obligations.ResetLeavesTheStatedValues
  refine ⟨fun a h => ?font, fun a h1 h2 => ?zeros, fun r => ?v, rfl, rfl, rfl, rfl, rfl, fun p q => ?fb, fun k => ?keys,
    rfl, rfl, rfl, fun m => rfl⟩
  case font =>
    rw [State.memRead_of_le (by omega)]
    simp [State.reset, Memory.get, Memory.unlisted, h]
  case zeros =>
    rw [State.memRead_of_le h2]
    simp [State.reset, Memory.get, Memory.unlisted, Nat.not_lt.2 h1]
  case v => simp [State.readV, State.reset]
  case fb => simp [State.pixel, State.reset]
  case keys => simp [State.keyHeld, State.reset]

/-- Settles O49. -/
theorem invariantHoldsAtReset : Obligations.InvariantHoldsAtReset := reset_inv

end Sys2Proof.Machine
end

section
/-! PROOFS of the family "Memory" (`20_memory.md`): what `LoadROM` stores and what it refuses, and which events reach
memory at all. -/

namespace Sys2Proof.Machine

/-! ### What `LoadROM` answers (`20_memory.md` R60, R61) -/

/-- A ROM that fits is stored when no fault is recorded. -/
theorem loadRom_of_fits {bytes : List Byte} {s : State} (hlen : bytes.length ≤ Config.romMax) (hf : s.fault = none) :
    loadRom bytes s = .ok { s with mem := s.mem.putAll Config.programStart bytes } := by
  rcases loadRom_cases bytes s with ⟨hlong, _⟩ | ⟨_, hne, _⟩ | ⟨_, _, e⟩
  · exact absurd hlen (Nat.not_le.2 hlong)
  · exact absurd hf hne
  · exact e

/-- A ROM that does not fit is a load error, whatever the state. -/
theorem loadRom_of_oversized {bytes : List Byte} (s : State) (hlen : Config.romMax < bytes.length) :
    loadRom bytes s = .error .romTooLong := by
  rcases loadRom_cases bytes s with ⟨_, e⟩ | ⟨hfits, _, _⟩ | ⟨hfits, _, _⟩
  · exact e
  · exact absurd hlen (Nat.not_lt.2 hfits)
  · exact absurd hlen (Nat.not_lt.2 hfits)

/-! ### What memory reads after a load (`20_memory.md` R60) -/

/-- Replacing memory changes no other element. -/
theorem sameExcept_setMem (s : State) (m : Memory) : SameExcept [.mem] s { s with mem := m } := by
  intro el h
  cases el with
  | mem => simp at h
  | v | keys => exact fun _ => rfl
  | fb => exact fun _ _ => rfl
  | i | pc | stack | delayTimer | soundTimer | waitingForKey | keyRegister | fault => rfl

section
variable {m : Memory} {a : Nat} {bytes : List Byte}

/-- The byte at offset `j` is read back at offset `j`. -/
theorem Memory.get_putAll_inside (hm : m.wf) (h : a + bytes.length ≤ Config.memorySize) {j : Nat}
    (hj : j < bytes.length) : (m.putAll a bytes).get (a + j) = bytes[j] := by
  rw [Memory.get_putAll hm h, if_pos (Nat.le_add_right a j)]
  simp [hj]

/-- An address before or after the stored bytes reads as before. -/
theorem Memory.get_putAll_outside (hm : m.wf) (h : a + bytes.length ≤ Config.memorySize) {q : Nat}
    (hq : q < a ∨ a + bytes.length ≤ q) : (m.putAll a bytes).get q = m.get q := by
  rw [Memory.get_putAll hm h]
  rcases hq with hbefore | hafter
  · rw [if_neg (Nat.not_le.2 hbefore)]
  · rw [if_pos (by omega), List.getD_eq_default _ _ (by omega)]

end

/-- Two states whose memories agree at an address answer the same read there, inside memory and above it. -/
theorem State.memRead_congr_get {s t : State} {a : Nat} (h : t.mem.get a = s.mem.get a) :
    t.memRead a = s.memRead a := by
  simp [State.memRead, h]

/-! ### Which events reach memory (`20_memory.md` R62, R65) -/

/-- A refresh writes no memory. -/
@[simp] theorem inputRefreshWith_mem (order : Equiv.Perm Key) (k : Vector Bool 16) (s : State) :
    (inputRefreshWith order k s).mem = s.mem := by
  rcases inputRefreshWith_cases order k s with ⟨_, e⟩ | ⟨_, _, e⟩ | ⟨_, _, j, _, e⟩ <;> rw [e] <;> rfl

/-- After the first cycle an event other than `Reset()` keeps the session started and every byte as it reads: the load that
would store is the one before the first cycle. -/
theorem deliver_keeps_memory_of_started {e : Event} {m m' : Session} (hs : m.started = true) (he : e ≠ .reset)
    (hd : deliver e m = .next m') : m'.started = true ∧ ∀ a, m'.core.memRead a = m.core.memRead a := by
  rcases deliver_cases hd with
    ⟨hreset, _⟩ | ⟨bytes, _, hs', hcore | ⟨_, hfresh, _⟩⟩ | ⟨k, _, rfl⟩ | ⟨_, hs', hstep⟩
  · exact absurd hreset he
  · exact ⟨hs'.trans hs, fun _ => by rw [hcore]⟩
  · simp [hs] at hfresh
  · exact ⟨hs, State.memRead_congr (inputRefreshWith_mem Config.keyOrder k m.core)⟩
  · obtain ⟨hmem, _⟩ := cycleNeverWritesMemoryOrKeys m.core m'.core hstep
    exact ⟨hs', hmem⟩

/-- A load after the first cycle is refused by name, unless a fault is recorded. -/
theorem deliver_loadRom_of_started {m : Session} (bytes : List Byte) (hs : m.started = true) (hf : m.core.fault = none) :
    deliver (.loadRom bytes) m = .refused .loadAfterFirstCycle := by
  simp [deliver, deliverLoad, hs, hf]

/-- Before the first cycle an oversized load leaves the session as it was, in the faulted state and outside it. -/
theorem deliver_loadRom_of_oversized {m : Session} {bytes : List Byte} (hlen : Config.romMax < bytes.length)
    (hs : m.started = false) : deliver (.loadRom bytes) m = .next m := by
  cases hf : m.core.fault with
  | some f => simp [deliver, deliverLoad, hf]
  | none => simp [deliver, deliverLoad, hf, hs, loadRom_of_oversized m.core hlen]

/-! ### The obligations -/

/-- Settles O41. -/
theorem memoryIsFixedOnceRunning : Obligations.MemoryIsFixedOnceRunning := by
  unfold Obligations.MemoryIsFixedOnceRunning
  exact ⟨fun _ _ _ => deliver_keeps_memory_of_started, fun bytes _ => deliver_loadRom_of_started bytes⟩

/-- Settles O44: the ROM ends at or below 0xFFF, so its bytes are read without a fault, and elsewhere memory reads as
before. -/
theorem loadRomCopiesFromTheProgramStart : Obligations.LoadRomCopiesFromTheProgramStart := by
  unfold Obligations.LoadRomCopiesFromTheProgramStart
  intro bytes s hlen hf hm
  have hfits : Config.programStart + bytes.length ≤ Config.memorySize := Nat.add_le_add_left hlen Config.programStart
  refine ⟨_, loadRom_of_fits hlen hf, fun j hj => ?inside, fun a ha => ?outside, sameExcept_setMem s _⟩
  case inside =>
    rw [State.memRead_of_le (by omega)]
    exact congrArg _ (Memory.get_putAll_inside hm hfits hj)
  case outside => exact State.memRead_congr_get (Memory.get_putAll_outside hm hfits ha)

/-- Settles O45. -/
theorem oversizedRomIsRefusedWhole : Obligations.OversizedRomIsRefusedWhole := by
  unfold Obligations.OversizedRomIsRefusedWhole
  exact fun _ m hlen => ⟨loadRom_of_oversized m.core hlen, deliver_loadRom_of_oversized hlen⟩

end Sys2Proof.Machine
end

section
/-! PROOFS of the family "Encoding" (`30_encoding.md`). Decoding is read off the fields the masks of the opcode map keep; each
instruction has one pattern of that map, so that decoding, being a function, makes the patterns disjoint. -/

namespace Sys2Proof

/-! ### The masks as fields (`30_encoding.md` R71, R74) -/

section
variable {w v : Word} {g : Nat}

/-- A match under the mask 0xF000 fixes the top nibble. -/
theorem and_F000_eq_iff (hv : v.toNat = g * 0x1000) : w &&& 0xF000 = v ↔ (fieldTop w).toNat = g := by
  rw [BitVec.toNat_eq, and_F000_toNat, hv, fieldTop_toNat]
  omega

/-- A match under the mask 0xF0FF fixes the top nibble and the low byte. -/
theorem and_F0FF_eq_iff {b : Byte} (hv : v.toNat = g * 0x1000 + b.toNat) :
    w &&& 0xF0FF = v ↔ (fieldTop w).toNat = g ∧ fieldNn w = b := by
  have := b.isLt
  rw [BitVec.toNat_eq, and_F0FF_toNat, hv, BitVec.toNat_eq, fieldTop_toNat, fieldNn_toNat]
  omega

/-! ### Laying the fields of a word out again (`30_encoding.md` R72) -/

theorem encodeNnn_of_fields (ht : (fieldTop w).toNat = g) : encodeNnn g (fieldNnn w) = w := by
  apply BitVec.eq_of_toNat_eq
  rw [encodeNnn_toNat (ht ▸ (fieldTop w).isLt), fieldNnn_toNat, ← ht, fieldTop_toNat]
  omega

theorem encodeXnn_of_fields {nn : Byte} (ht : (fieldTop w).toNat = g) (hn : fieldNn w = nn) :
    encodeXnn g (fieldX w) nn = w := by
  apply BitVec.eq_of_toNat_eq
  rw [encodeXnn_toNat (ht ▸ (fieldTop w).isLt), ← hn, fieldX_val, fieldNn_toNat, ← ht, fieldTop_toNat]
  omega

theorem encodeXyn_of_fields (ht : (fieldTop w).toNat = g) : encodeXyn g (fieldX w) (fieldY w) (fieldN w) = w := by
  apply BitVec.eq_of_toNat_eq
  rw [encodeXyn_toNat (ht ▸ (fieldTop w).isLt), fieldX_val, fieldY_val, fieldN_toNat, ← ht, fieldTop_toNat]
  omega

end

/-! ### What a word decodes to, by its fields (`30_encoding.md` R75) -/

section
variable {w : Word}

theorem decodeWord_jp (h : (fieldTop w).toNat = 0x1) : decodeWord w = .jp (fieldNnn w) := by simp [decodeWord, h]

theorem decodeWord_call (h : (fieldTop w).toNat = 0x2) : decodeWord w = .call (fieldNnn w) := by simp [decodeWord, h]

theorem decodeWord_seVxNn (h : (fieldTop w).toNat = 0x3) : decodeWord w = .seVxNn (fieldX w) (fieldNn w) := by
  simp [decodeWord, h]

theorem decodeWord_ldVxNn (h : (fieldTop w).toNat = 0x6) : decodeWord w = .ldVxNn (fieldX w) (fieldNn w) := by
  simp [decodeWord, h]

theorem decodeWord_addVxNn (h : (fieldTop w).toNat = 0x7) : decodeWord w = .addVxNn (fieldX w) (fieldNn w) := by
  simp [decodeWord, h]

theorem decodeWord_ldINnn (h : (fieldTop w).toNat = 0xA) : decodeWord w = .ldINnn (fieldNnn w) := by
  simp [decodeWord, h]

theorem decodeWord_drwVxVyN (h : (fieldTop w).toNat = 0xD) :
    decodeWord w = .drwVxVyN (fieldX w) (fieldY w) (fieldN w) := by
  simp [decodeWord, h]

theorem decodeWord_skpVx (h : (fieldTop w).toNat = 0xE ∧ fieldNn w = 0x9E) : decodeWord w = .skpVx (fieldX w) := by
  simp [decodeWord, decodeGroupE, h]

theorem decodeWord_sknpVx (h : (fieldTop w).toNat = 0xE ∧ fieldNn w = 0xA1) : decodeWord w = .sknpVx (fieldX w) := by
  simp [decodeWord, decodeGroupE, h]

theorem decodeWord_ldVxK (h : (fieldTop w).toNat = 0xF ∧ fieldNn w = 0x0A) : decodeWord w = .ldVxK (fieldX w) := by
  simp [decodeWord, decodeGroupF, h]

theorem decodeWord_ldDtVx (h : (fieldTop w).toNat = 0xF ∧ fieldNn w = 0x15) : decodeWord w = .ldDtVx (fieldX w) := by
  simp [decodeWord, decodeGroupF, h]

theorem decodeWord_ldStVx (h : (fieldTop w).toNat = 0xF ∧ fieldNn w = 0x18) : decodeWord w = .ldStVx (fieldX w) := by
  simp [decodeWord, decodeGroupF, h]

theorem decodeWord_ldVxDt (h : (fieldTop w).toNat = 0xF ∧ fieldNn w = 0x07) : decodeWord w = .ldVxDt (fieldX w) := by
  simp [decodeWord, decodeGroupF, h]

end

/-- Settles O3: the mask of a row keeps the fields that the decoder looks at. -/
theorem opcodeMapSelectsTheInstruction : Obligations.OpcodeMapSelectsTheInstruction := by
  unfold Obligations.OpcodeMapSelectsTheInstruction
  intro w
  exact ⟨fun h => by rw [← and_FFFF w, h]; rfl, fun h => by rw [← and_FFFF w, h]; rfl,
    fun h => decodeWord_jp ((and_F000_eq_iff rfl).1 h),
    fun h => decodeWord_call ((and_F000_eq_iff rfl).1 h),
    fun h => decodeWord_seVxNn ((and_F000_eq_iff rfl).1 h),
    fun h => decodeWord_ldVxNn ((and_F000_eq_iff rfl).1 h),
    fun h => decodeWord_addVxNn ((and_F000_eq_iff rfl).1 h),
    fun h => decodeWord_ldINnn ((and_F000_eq_iff rfl).1 h),
    fun h => decodeWord_drwVxVyN ((and_F000_eq_iff rfl).1 h),
    fun h => decodeWord_skpVx ((and_F0FF_eq_iff rfl).1 h),
    fun h => decodeWord_sknpVx ((and_F0FF_eq_iff rfl).1 h),
    fun h => decodeWord_ldVxK ((and_F0FF_eq_iff rfl).1 h),
    fun h => decodeWord_ldDtVx ((and_F0FF_eq_iff rfl).1 h),
    fun h => decodeWord_ldStVx ((and_F0FF_eq_iff rfl).1 h),
    fun h => decodeWord_ldVxDt ((and_F0FF_eq_iff rfl).1 h)⟩

/-! ### No bit is dropped (`30_encoding.md` R76) -/

theorem encode_decodeGroup0 (w : Word) : encode (decodeGroup0 w) = w := by
  unfold decodeGroup0
  split_ifs with hcls hret
  · exact hcls.symm
  · exact hret.symm
  · rfl

theorem encode_decodeGroupE {w : Word} (ht : (fieldTop w).toNat = 0xE) : encode (decodeGroupE w) = w := by
  unfold decodeGroupE
  split
  case h_3 => rfl
  all_goals exact encodeXnn_of_fields ht (BitVec.eq_of_toNat_eq ‹_›)

theorem encode_decodeGroupF {w : Word} (ht : (fieldTop w).toNat = 0xF) : encode (decodeGroupF w) = w := by
  unfold decodeGroupF
  split
  case h_5 => rfl
  all_goals exact encodeXnn_of_fields ht (BitVec.eq_of_toNat_eq ‹_›)

theorem encode_decodeWord (w : Word) : encode (decodeWord w) = w := by
  unfold decodeWord
  split <;> rename_i ht
  · exact encode_decodeGroup0 w
  · exact encodeNnn_of_fields ht
  · exact encodeNnn_of_fields ht
  · exact encodeXnn_of_fields ht rfl
  · exact encodeXnn_of_fields ht rfl
  · exact encodeXnn_of_fields ht rfl
  · exact encodeNnn_of_fields ht
  · exact encodeXyn_of_fields ht
  · exact encode_decodeGroupE ht
  · exact encode_decodeGroupF ht
  · rfl

/-! ### The pattern of an instruction (`30_encoding.md` R74, R77) -/

/-- The row of the opcode map that an instruction stands in; an unknown opcode stands in none. -/
def patternOf : Instr → Option OpcodeRow
  | .cls => some ⟨0xFFFF, 0x00E0⟩
  | .ret => some ⟨0xFFFF, 0x00EE⟩
  | .jp _ => some ⟨0xF000, 0x1000⟩
  | .call _ => some ⟨0xF000, 0x2000⟩
  | .seVxNn _ _ => some ⟨0xF000, 0x3000⟩
  | .ldVxNn _ _ => some ⟨0xF000, 0x6000⟩
  | .addVxNn _ _ => some ⟨0xF000, 0x7000⟩
  | .ldINnn _ => some ⟨0xF000, 0xA000⟩
  | .drwVxVyN _ _ _ => some ⟨0xF000, 0xD000⟩
  | .skpVx _ => some ⟨0xF0FF, 0xE09E⟩
  | .sknpVx _ => some ⟨0xF0FF, 0xE0A1⟩
  | .ldVxK _ => some ⟨0xF0FF, 0xF00A⟩
  | .ldDtVx _ => some ⟨0xF0FF, 0xF015⟩
  | .ldStVx _ => some ⟨0xF0FF, 0xF018⟩
  | .ldVxDt _ => some ⟨0xF0FF, 0xF007⟩
  | .unknownOpcode _ => none

section
variable {w : Word} {i : Instr} {row : OpcodeRow}

theorem OpcodeRow.covers_iff : row.covers w = true ↔ w &&& row.mask = row.value := beq_iff_eq

theorem mem_opcodeRows_of_patternOf (h : patternOf i = some row) : row ∈ opcodeRows := by
  cases i <;> cases h <;> decide

/-- The pattern of an instruction covers its word. -/
theorem covers_encode (h : patternOf i = some row) : row.covers (encode i) = true := by
  rw [OpcodeRow.covers_iff]
  cases i <;> cases h
  case cls | ret => rfl
  case jp nnn | call nnn | ldINnn nnn => exact (and_F000_eq_iff rfl).2 (fieldTop_encodeNnn (by decide) nnn)
  case seVxNn x nn | ldVxNn x nn | addVxNn x nn => exact (and_F000_eq_iff rfl).2 (fieldTop_encodeXnn (by decide) x nn)
  case drwVxVyN x y n => exact (and_F000_eq_iff rfl).2 (fieldTop_encodeXyn (by decide) x y n)
  case skpVx x | sknpVx x | ldVxK x | ldDtVx x | ldStVx x | ldVxDt x =>
    exact (and_F0FF_eq_iff rfl).2 ⟨fieldTop_encodeXnn (by decide) x _, fieldNn_encodeXnn (by decide) x _⟩

/-- A word that a row covers decodes to an instruction of that row: the opcode map, read as rows. -/
theorem patternOf_decodeWord_of_covers (hrow : row ∈ opcodeRows) (h : row.covers w = true) :
    patternOf (decodeWord w) = some row := by
  obtain ⟨cls, ret, jp, call, se, ld, add, ldI, drw, skp, sknp, ldK, ldDt, ldSt, readDt⟩ :=
    opcodeMapSelectsTheInstruction w
  rw [OpcodeRow.covers_iff] at h
  simp only [opcodeRows, List.mem_cons, List.not_mem_nil, or_false] at hrow
  rcases hrow with rfl | rfl | rfl | rfl | rfl | rfl | rfl | rfl | rfl | rfl | rfl | rfl | rfl | rfl | rfl
  · exact congrArg patternOf (cls h)
  · exact congrArg patternOf (ret h)
  · exact congrArg patternOf (jp h)
  · exact congrArg patternOf (call h)
  · exact congrArg patternOf (se h)
  · exact congrArg patternOf (ld h)
  · exact congrArg patternOf (add h)
  · exact congrArg patternOf (ldI h)
  · exact congrArg patternOf (drw h)
  · exact congrArg patternOf (skp h)
  · exact congrArg patternOf (sknp h)
  · exact congrArg patternOf (ldK h)
  · exact congrArg patternOf (ldDt h)
  · exact congrArg patternOf (ldSt h)
  · exact congrArg patternOf (readDt h)

end

/-! ### The unknown class (`30_encoding.md` R77) -/

/-- An unknown opcode carries the word it was decoded from. -/
theorem word_of_decodeWord_unknownOpcode {w v : Word} (h : decodeWord w = .unknownOpcode v) : v = w := by
  rw [← encode_decodeWord w, h]; rfl

theorem isKnownWord_eq_false_iff (w : Word) : isKnownWord w = false ↔ ∀ row ∈ opcodeRows, row.covers w = false := by
  simp [isKnownWord]

/-- A word is of the unknown class exactly when no pattern covers it: a pattern that covers the word is the pattern of what it
decodes to, and the pattern of what it decodes to covers the word. -/
theorem decodeWord_eq_unknownOpcode_iff (w : Word) :
    decodeWord w = .unknownOpcode w ↔ ∀ row ∈ opcodeRows, row.covers w = false := by
  constructor
  · intro h row hrow
    by_contra hc
    have hp := patternOf_decodeWord_of_covers hrow (Bool.eq_true_of_not_eq_false hc)
    rw [h] at hp
    cases hp
  · intro h
    have hnone : ∀ row, patternOf (decodeWord w) ≠ some row := by
      intro row hp
      have hc := covers_encode hp
      rw [encode_decodeWord, h row (mem_opcodeRows_of_patternOf hp)] at hc
      cases hc
    cases e : decodeWord w with
    | unknownOpcode v => rw [word_of_decodeWord_unknownOpcode e]
    | _ => exact absurd (congrArg patternOf e) (hnone _)

/-- Decoding answers a well-formed instruction. -/
theorem decodeWord_wellFormed (w : Word) : (decodeWord w).wellFormed = true := by
  cases e : decodeWord w with
  | unknownOpcode v =>
    obtain rfl := word_of_decodeWord_unknownOpcode e
    simp [Instr.wellFormed, (isKnownWord_eq_false_iff v).2 ((decodeWord_eq_unknownOpcode_iff v).1 e)]
  | _ => rfl

/-! ### Decoding undoes encoding (`30_encoding.md` R70, R72) -/

theorem decodeWord_encode {i : Instr} (h : i.wellFormed = true) : decodeWord (encode i) = i := by
  cases i with
  | cls | ret => rfl
  | jp nnn => simp [encode, decodeWord_jp, fieldTop_encodeNnn, fieldNnn_encodeNnn]
  | call nnn => simp [encode, decodeWord_call, fieldTop_encodeNnn, fieldNnn_encodeNnn]
  | ldINnn nnn => simp [encode, decodeWord_ldINnn, fieldTop_encodeNnn, fieldNnn_encodeNnn]
  | seVxNn x nn => simp [encode, decodeWord_seVxNn, fieldTop_encodeXnn, fieldX_encodeXnn, fieldNn_encodeXnn]
  | ldVxNn x nn => simp [encode, decodeWord_ldVxNn, fieldTop_encodeXnn, fieldX_encodeXnn, fieldNn_encodeXnn]
  | addVxNn x nn => simp [encode, decodeWord_addVxNn, fieldTop_encodeXnn, fieldX_encodeXnn, fieldNn_encodeXnn]
  | drwVxVyN x y n =>
    simp [encode, decodeWord_drwVxVyN, fieldTop_encodeXyn, fieldX_encodeXyn, fieldY_encodeXyn, fieldN_encodeXyn]
  | skpVx x => simp [encode, decodeWord_skpVx, fieldTop_encodeXnn, fieldX_encodeXnn, fieldNn_encodeXnn]
  | sknpVx x => simp [encode, decodeWord_sknpVx, fieldTop_encodeXnn, fieldX_encodeXnn, fieldNn_encodeXnn]
  | ldVxK x => simp [encode, decodeWord_ldVxK, fieldTop_encodeXnn, fieldX_encodeXnn, fieldNn_encodeXnn]
  | ldDtVx x => simp [encode, decodeWord_ldDtVx, fieldTop_encodeXnn, fieldX_encodeXnn, fieldNn_encodeXnn]
  | ldStVx x => simp [encode, decodeWord_ldStVx, fieldTop_encodeXnn, fieldX_encodeXnn, fieldNn_encodeXnn]
  | ldVxDt x => simp [encode, decodeWord_ldVxDt, fieldTop_encodeXnn, fieldX_encodeXnn, fieldNn_encodeXnn]
  | unknownOpcode w =>
    have hw : isKnownWord w = false := by simpa [Instr.wellFormed] using h
    exact (decodeWord_eq_unknownOpcode_iff w).2 ((isKnownWord_eq_false_iff w).1 hw)

/-- The two bytes of an instruction, laid before any others, decode as its word does. -/
theorem decodeBytes_encodeBytes_append (i : Instr) (rest : List Byte) :
    decodeBytes (encodeBytes i ++ rest) = .ok (decodeWord (encode i), rest) := by
  simp [encodeBytes, decodeBytes]

/-! ### The obligations -/

/-- Settles O1: one case per instruction for the word; the two bytes make the word up again. -/
theorem decodeOfEncodeIsTheInstruction : Obligations.DecodeOfEncodeIsTheInstruction := by
  unfold Obligations.DecodeOfEncodeIsTheInstruction
  intro i h
  refine ⟨decodeWord_encode h, fun rest => ?_⟩
  rw [decodeBytes_encodeBytes_append, decodeWord_encode h]

/-- Settles O2: each branch of the decoder keeps every field of its format. -/
theorem encodeOfDecodeIsTheWord : Obligations.EncodeOfDecodeIsTheWord := by
  unfold Obligations.EncodeOfDecodeIsTheWord
  exact fun w => ⟨encode_decodeWord w, decodeWord_wellFormed w⟩

/-- Settles O4: two patterns that cover one word are both the pattern of what it decodes to. -/
theorem patternsAreDisjointAndDecodingIsTotal : Obligations.PatternsAreDisjointAndDecodingIsTotal := by
  unfold Obligations.PatternsAreDisjointAndDecodingIsTotal
  intro w
  refine ⟨fun a ha b hb hca hcb => ?_, (decodeWord_eq_unknownOpcode_iff w).symm⟩
  have hpa := patternOf_decodeWord_of_covers ha hca
  have hpb := patternOf_decodeWord_of_covers hb hcb
  exact Option.some.inj (hpa.symm.trans hpb)

/-- Settles O5, on the fields as quotients and remainders of the word. -/
theorem fieldsOverlapAsNamed : Obligations.FieldsOverlapAsNamed := by
  unfold Obligations.FieldsOverlapAsNamed
  intro op
  rw [fieldTop_toNat, fieldX_val, fieldY_val, fieldN_toNat, fieldNnn_toNat, fieldNn_toNat]
  refine ⟨?_, ?_, ?_⟩ <;> omega

/-- Settles O6: every word is a closed one. -/
theorem writtenWordsDecode : Obligations.WrittenWordsDecode := by
  unfold Obligations.WrittenWordsDecode
  decide

end Sys2Proof
end

section
/-! PROOFS of the family "Cycle" (`40_cycle.md`): what the fetch answers, which instructions write a timer, and how the cycle
ends. -/

namespace Sys2Proof.Machine

/-! ### The fetch (`40_cycle.md` R91) -/

/-- A fetch whose two reads answer is the big-endian word of the two bytes. -/
theorem State.fetch_of_memRead {s : State} {hi lo : Byte} (hhi : s.memRead s.pc.toNat = .ok hi)
    (hlo : s.memRead (s.pc.toNat + 1) = .ok lo) : s.fetch = .ok (wordOfBytes hi lo) := by
  simp [State.fetch, hhi, hlo]

/-- Taking a fault changes no element but the record. -/
theorem sameExcept_raise (s : State) (f : Fault) : SameExcept [.fault] s (s.raise f) := by
  intro el h
  cases el with
  | fault => simp at h
  | v | mem | keys => exact fun _ => rfl
  | fb => exact fun _ _ => rfl
  | i | pc | stack | delayTimer | soundTimer | waitingForKey | keyRegister => rfl

/-- A fetch that raises ends the step: the fault is recorded and nothing else changes. -/
theorem step_records_fetch_error {s : State} {f : Fault} (h : s.running) (hf : s.fetch = .error f) :
    ∃ t, step s = .next t ∧ t.fault = some f ∧ SameExcept [.fault] s t :=
  ⟨s.raise f, step_of_fetch_error h hf, rfl, sameExcept_raise s f⟩

/-! ### The timers (`40_cycle.md` R96) -/

/-- An instruction that is neither `LD DT, Vx` nor `LD ST, Vx` writes no timer. -/
theorem exec_keeps_timers {i : Instr} {s t : State} (hdt : ∀ x, i ≠ .ldDtVx x) (hst : ∀ x, i ≠ .ldStVx x)
    (e : exec i s = .next t) : t.delayTimer = s.delayTimer ∧ t.soundTimer = s.soundTimer := by
  cases i with
  | ldDtVx x => exact absurd rfl (hdt x)
  | ldStVx x => exact absurd rfl (hst x)
  | ret => rcases exec_ret_cases e with ⟨a, rest, _, rfl⟩ | ⟨_, rfl⟩ <;> exact ⟨rfl, rfl⟩
  | seVxNn x nn =>
    obtain rfl := Host.Outcome.next.inj e
    split <;> exact ⟨rfl, rfl⟩
  | drwVxVyN x y n =>
    obtain ⟨h, _⟩ := exec_drw_cases e
    rw [h]; exact ⟨rfl, rfl⟩
  | skpVx x =>
    rcases exec_skp_cases e with ⟨k, _, rfl⟩ | ⟨_, rfl⟩
    · split <;> exact ⟨rfl, rfl⟩
    · exact ⟨rfl, rfl⟩
  | sknpVx x =>
    rcases exec_sknp_cases e with ⟨k, _, rfl⟩ | ⟨_, rfl⟩
    · split <;> exact ⟨rfl, rfl⟩
    · exact ⟨rfl, rfl⟩
  | cls | jp | call | ldVxNn | addVxNn | ldINnn | ldVxK | ldVxDt | unknownOpcode =>
    obtain rfl := Host.Outcome.next.inj e
    exact ⟨rfl, rfl⟩

/-- All that an instruction can do to the timers: write the one it names, or write neither. -/
theorem exec_timer_cases {i : Instr} {s t : State} (e : exec i s = .next t) :
    (∃ x, i = .ldDtVx x ∧ t = s.setDelay (s.readV x)) ∨
    (∃ x, i = .ldStVx x ∧ t = s.setSound (s.readV x)) ∨
    ((∀ x, i ≠ .ldDtVx x) ∧ (∀ x, i ≠ .ldStVx x) ∧ t.delayTimer = s.delayTimer ∧ t.soundTimer = s.soundTimer) := by
  by_cases hdt : ∃ x, i = .ldDtVx x
  · obtain ⟨x, rfl⟩ := hdt
    exact .inl ⟨x, rfl, (Host.Outcome.next.inj e).symm⟩
  · by_cases hst : ∃ x, i = .ldStVx x
    · obtain ⟨x, rfl⟩ := hst
      exact .inr (.inl ⟨x, rfl, (Host.Outcome.next.inj e).symm⟩)
    · rw [not_exists] at hdt hst
      exact .inr (.inr ⟨hdt, hst, exec_keeps_timers hdt hst e⟩)

/-- An instruction that raises a fault writes no timer: the two that write one raise none. -/
theorem exec_keeps_timers_of_fault {i : Instr} {s t : State} (e : exec i s = .next t) (hs : s.fault = none)
    (ht : t.fault ≠ none) : t.delayTimer = s.delayTimer ∧ t.soundTimer = s.soundTimer := by
  rcases exec_timer_cases e with ⟨x, _, rfl⟩ | ⟨x, _, rfl⟩ | ⟨_, _, htimers⟩
  · exact absurd hs ht
  · exact absurd hs ht
  · exact htimers

/-! ### The end of a cycle (`40_cycle.md` R90, R96) -/

theorem State.endCycle_of_fault_ne {s : State} (h : s.fault ≠ none) : s.endCycle = s := by
  obtain ⟨f, hf⟩ := Option.ne_none_iff_exists'.1 h
  exact State.endCycle_of_some hf

/-- The end of a cycle, written out: both timers fall unless a fault is recorded. -/
theorem State.endCycle_eq_ite (s : State) : s.endCycle =
    if s.fault = none then { s with delayTimer := decrement s.delayTimer, soundTimer := decrement s.soundTimer } else s := by
  split
  · next h => exact State.endCycle_of_none h
  · next h => exact State.endCycle_of_fault_ne h

/-- A step that starts suspended or ends in a fault moves neither timer. -/
theorem step_keeps_timers {s t : State} (e : step s = .next t) (h : s.waitingForKey = true ∨ t.fault ≠ none) :
    t.delayTimer = s.delayTimer ∧ t.soundTimer = s.soundTimer := by
  rcases step_cases s with ⟨_, e'⟩ | ⟨_, _, e'⟩ | ⟨_, f, _, e'⟩ | ⟨⟨hf, hw⟩, op, u, _, hx, e'⟩ <;>
    obtain rfl := Host.Outcome.next.inj (e.symm.trans e')
  · exact ⟨rfl, rfl⟩
  · exact ⟨rfl, rfl⟩
  · exact ⟨rfl, rfl⟩
  · have hu : u.fault ≠ none := by simpa [hw] using h
    rw [State.endCycle_of_fault_ne hu]
    exact exec_keeps_timers_of_fault (s := s.advancePc) hx hf hu

/-! ### Unknown opcodes (`40_cycle.md` R95) -/

theorem SameExcept.refl (named : List Element) (s : State) : SameExcept named s s := by
  intro el _
  cases el with
  | v | mem | keys => exact fun _ => rfl
  | fb => exact fun _ _ => rfl
  | i | pc | stack | delayTimer | soundTimer | waitingForKey | keyRegister | fault => rfl

/-- The advance and the tick change pc and the timers only. -/
theorem sameExcept_advancePc_tick (s : State) :
    SameExcept [.pc, .delayTimer, .soundTimer] s s.advancePc.tick := by
  intro el h
  cases el with
  | pc | delayTimer | soundTimer => simp at h
  | v | mem | keys => exact fun _ => rfl
  | fb => exact fun _ _ => rfl
  | i | stack | waitingForKey | keyRegister | fault => rfl

/-- A cycle that fetches a word of the unknown class is the advance and the tick. -/
theorem step_of_fetch_unknown {s : State} {op : Word} (h : s.running) (hf : s.fetch = .ok op)
    (hop : isKnownWord op = false) : step s = .next s.advancePc.tick := by
  have hdecode : decodeWord op = .unknownOpcode op :=
    (decodeWord_eq_unknownOpcode_iff op).2 ((isKnownWord_eq_false_iff op).1 hop)
  have hfault : s.advancePc.fault = none := h.1
  rw [step_of_fetch h hf, hdecode, exec_unknownOpcode, endCycle_next, State.endCycle_of_none hfault]

/-! ### The obligations -/

/-- Settles O8: the three answers of the fetch, by the range of pc. -/
theorem fetchReadsBigEndianOrRaises : Obligations.FetchReadsBigEndianOrRaises := by
  unfold Obligations.FetchReadsBigEndianOrRaises
  intro s h
  refine ⟨fun hpc => ?word, fun hpc => ?second, fun hpc => ?first⟩
  case word =>
    exact ⟨_, _, _, State.memRead_of_le (by omega), State.memRead_of_le (by omega), State.fetch_of_le hpc,
      wordOfBytes_toNat _ _⟩
  case second =>
    rcases s.fetch_cases with ⟨hle, _⟩ | ⟨_, e⟩ | ⟨hgt, _⟩
    · omega
    · exact step_records_fetch_error h e
    · omega
  case first =>
    rcases s.fetch_cases with ⟨hle, _⟩ | ⟨heq, _⟩ | ⟨_, e⟩
    · omega
    · omega
    · exact step_records_fetch_error h e

/-- Settles O9: what the instruction does to the timers, and then the tick. -/
theorem everyExecutedCycleTicksBothTimers : Obligations.EveryExecutedCycleTicksBothTimers := by
  unfold Obligations.EveryExecutedCycleTicksBothTimers
  refine ⟨fun s t i h hi => ?_, fun s t => step_keeps_timers⟩
  obtain ⟨u, hx, _, rfl⟩ := executedCycle_cases h hi
  rcases exec_timer_cases hx with ⟨x, rfl, rfl⟩ | ⟨x, rfl, rfl⟩ | ⟨hdt, hst, hdelay, hsound⟩
  · simp
  · simp
  · simp [hdt, hst, hdelay, hsound]

/-- Settles O10. -/
theorem unknownOpcodeOnlyAdvancesAndTicks : Obligations.UnknownOpcodeOnlyAdvancesAndTicks := by
  unfold Obligations.UnknownOpcodeOnlyAdvancesAndTicks
  refine ⟨fun w s => ⟨s, exec_unknownOpcode w s, SameExcept.refl [] s⟩, fun s op h hf hop => ?_⟩
  exact ⟨s.advancePc.tick, step_of_fetch_unknown h hf hop, rfl, decrement_toNat _, decrement_toNat _,
    sameExcept_advancePc_tick s⟩

/-- Settles O7: the cases of a step; the decoder of bytes reads the word that the fetch reads. -/
theorem stepRunsTheDecodedInstruction : Obligations.StepRunsTheDecodedInstruction := by
  unfold Obligations.StepRunsTheDecodedInstruction
  intro s
  refine ⟨fun hf => ?faulted, fun hf hw => ?suspended, fun f h hf => step_of_fetch_error h hf,
    fun hi lo i h hhi hlo hdecode _ => ?executed⟩
  case faulted => simp [step, Option.isSome_iff_ne_none.2 hf]
  case suspended => simp [step, hf, hw]
  case executed =>
    obtain ⟨rfl, _⟩ := Prod.mk.inj (Except.ok.inj hdecode)
    obtain ⟨t, ht⟩ := exec_total (decodeWord (wordOfBytes hi lo)) s.advancePc
    refine ⟨t, ht, ?_⟩
    rw [step_of_fetch h (State.fetch_of_memRead hhi hlo), ht, endCycle_next, t.endCycle_eq_ite]

end Sys2Proof.Machine
end

section
/-! PROOFS of the family "Flow" (`41_flow.md`): what a control transfer leaves unchanged, and the call on a stack of any
depth. -/

namespace Sys2Proof.Machine

/-! ### Frames of the updates of pc and of the stack -/

/-- Writing pc changes no other element. -/
theorem sameExcept_setPc (s : State) (a : Word) : SameExcept [.pc] s (s.setPc a) := by
  intro el h
  cases el with
  | pc => simp at h
  | v | mem | keys => exact fun _ => rfl
  | fb => exact fun _ _ => rfl
  | i | stack | delayTimer | soundTimer | waitingForKey | keyRegister | fault => rfl

/-- A jump that also replaces the call stack changes no element but the two. -/
theorem sameExcept_setStack_setPc (s : State) (l : List Word) (a : Word) :
    SameExcept [.pc, .stack] s { s with stack := l, pc := a } := by
  intro el h
  cases el with
  | pc | stack => simp at h
  | v | mem | keys => exact fun _ => rfl
  | fb => exact fun _ _ => rfl
  | i | delayTimer | soundTimer | waitingForKey | keyRegister | fault => rfl

/-! ### The address of a jump (`30_encoding.md` R73) -/

@[simp] theorem zext16_toNat (nnn : BitVec 12) : (zext16 nnn).toNat = nnn.toNat :=
  BitVec.toNat_setWidth_of_le (by decide)

/-! ### The call on a stack of any depth (`41_flow.md` R102, `60_exceptions.md` R164) -/

/-- A call with room on the stack: no limit, or a limit above the entries it holds. -/
theorem callWith_of_room {depth : Option Nat} {s : State} (h : ∀ d, depth = some d → s.stack.length < d)
    (nnn : BitVec 12) : callWith depth nnn s = { s with stack := s.pc :: s.stack, pc := zext16 nnn } := by
  rcases s.push_cases depth s.pc with ⟨_, e⟩ | ⟨⟨d, hd, hfull⟩, _⟩
  · rw [callWith, e]; rfl
  · exact absurd (h d hd) (Nat.not_lt.2 hfull)

/-- A call on a full stack records the fault and pushes nothing. -/
theorem callWith_of_full {d : Nat} {s : State} (h : d ≤ s.stack.length) (nnn : BitVec 12) :
    callWith (some d) nnn s = s.raise .stackOverflow := by
  rcases s.push_cases (some d) s.pc with ⟨hroom, _⟩ | ⟨_, e⟩
  · exact absurd (hroom d rfl) (Nat.not_lt.2 h)
  · rw [callWith, e]

/-! ### The obligations -/

/-- Settles O12: the two answers of `RET`, by the stack. -/
theorem retPopsThePcOrUnderflows : Obligations.RetPopsThePcOrUnderflows := by
  unfold Obligations.RetPopsThePcOrUnderflows
  refine fun s => ⟨fun top rest hs => ?pops, fun hs => ?underflows⟩
  case pops => exact ⟨_, exec_ret_cons hs, rfl, rfl, sameExcept_setStack_setPc s rest top⟩
  case underflows => exact ⟨_, exec_ret_nil hs, rfl, sameExcept_raise s _⟩

/-- Settles O14. -/
theorem jpSetsPc : Obligations.JpSetsPc := by
  unfold Obligations.JpSetsPc
  exact fun nnn s => ⟨_, exec_jp nnn s, zext16_toNat nnn, sameExcept_setPc s _⟩

/-- Settles O15: with room on the stack the depth does not matter, and without room the call raises. -/
theorem callPushesThePcAndJumps : Obligations.CallPushesThePcAndJumps := by
  unfold Obligations.CallPushesThePcAndJumps
  refine ⟨fun nnn s => ?unbounded, fun nnn s depth hroom => ?room, fun nnn s depth hfull => ?full⟩
  case unbounded =>
    exact ⟨_, exec_call nnn s, rfl, zext16_toNat nnn, sameExcept_setStack_setPc s _ _⟩
  case room =>
    rw [callWith_of_room (depth := some depth) (by simpa using hroom), callWith_of_room (depth := none) (by simp)]
  case full =>
    rw [callWith_of_full hfull]
    exact ⟨rfl, sameExcept_raise s _⟩

/-- Settles O16: bytes are equal exactly when their unsigned values are; a taken skip writes pc, the other branch
nothing. -/
theorem seSkipsExactlyOnEquality : Obligations.SeSkipsExactlyOnEquality := by
  unfold Obligations.SeSkipsExactlyOnEquality
  intro x nn s
  refine ⟨_, exec_seVxNn x nn s, ?_⟩
  simp only [BitVec.toNat_inj]
  split
  · exact ⟨rfl, sameExcept_setPc s _⟩
  · exact ⟨rfl, SameExcept.refl _ s⟩

end Sys2Proof.Machine
end

section
/-! PROOFS of the family "Load and add" (`42_load_add.md`): what a load leaves unchanged, and which instruction writes I. -/

namespace Sys2Proof.Machine

/-! ### Frames of the updates of a V register and of I -/

/-- Writing a V register changes no element but the V registers. -/
theorem sameExcept_writeV (s : State) (x : VReg) (b : Byte) : SameExcept [.v] s (s.writeV x b) := by
  intro el h
  cases el with
  | v => simp at h
  | mem | keys => exact fun _ => rfl
  | fb => exact fun _ _ => rfl
  | i | pc | stack | delayTimer | soundTimer | waitingForKey | keyRegister | fault => rfl

/-- Writing I changes no other element. -/
theorem sameExcept_setI (s : State) (a : Word) : SameExcept [.i] s (s.setI a) := by
  intro el h
  cases el with
  | i => simp at h
  | v | mem | keys => exact fun _ => rfl
  | fb => exact fun _ _ => rfl
  | pc | stack | delayTimer | soundTimer | waitingForKey | keyRegister | fault => rfl

/-! ### What writes I (`42_load_add.md` R112) -/

/-- An instruction that is not `LD I, nnn` keeps I. -/
theorem exec_keeps_i {i : Instr} {s t : State} (hi : ∀ nnn, i ≠ .ldINnn nnn) (e : exec i s = .next t) : t.i = s.i := by
  cases i with
  | ldINnn nnn => exact absurd rfl (hi nnn)
  | ret => rcases exec_ret_cases e with ⟨a, rest, _, rfl⟩ | ⟨_, rfl⟩ <;> rfl
  | seVxNn x nn =>
    obtain rfl := Host.Outcome.next.inj e
    split <;> rfl
  | drwVxVyN x y n =>
    obtain ⟨h, _⟩ := exec_drw_cases e
    rw [h]
  | skpVx x =>
    rcases exec_skp_cases e with ⟨k, _, rfl⟩ | ⟨_, rfl⟩
    · split <;> rfl
    · rfl
  | sknpVx x =>
    rcases exec_sknp_cases e with ⟨k, _, rfl⟩ | ⟨_, rfl⟩
    · split <;> rfl
    · rfl
  | cls | jp | call | ldVxNn | addVxNn | ldVxK | ldDtVx | ldStVx | ldVxDt | unknownOpcode =>
    obtain rfl := Host.Outcome.next.inj e
    rfl

/-! ### The obligations -/

/-- Settles O19: the load by the frame of I, the converse because every other instruction keeps I. -/
theorem ldILoadsTheAddress : Obligations.LdILoadsTheAddress := by
  unfold Obligations.LdILoadsTheAddress
  refine ⟨fun nnn s => ?load, fun i s t e hne => ?onlyWriter⟩
  case load => exact ⟨_, exec_ldINnn nnn s, zext16_toNat nnn, sameExcept_setI s _⟩
  case onlyWriter =>
    by_contra hi
    exact hne (exec_keeps_i (not_exists.1 hi) e)

/-- Settles O17. -/
theorem ldVxNnLoadsTheImmediate : Obligations.LdVxNnLoadsTheImmediate := by
  unfold Obligations.LdVxNnLoadsTheImmediate
  exact fun x nn s => ⟨_, exec_ldVxNn x nn s, s.readV_writeV_same x nn, fun _ hr => s.readV_writeV_other hr nn,
    sameExcept_writeV s x nn⟩

/-- Settles O18: the sum of bytes is the unsigned sum modulo 256. -/
theorem addVxNnWrapsWithoutCarry : Obligations.AddVxNnWrapsWithoutCarry := by
  unfold Obligations.AddVxNnWrapsWithoutCarry
  intro x nn s
  refine ⟨_, exec_addVxNn x nn s, ?sum, fun r hr => s.readV_writeV_other hr _, sameExcept_writeV s x _⟩
  rw [State.readV_writeV_same, BitVec.toNat_add]

end Sys2Proof.Machine
end

section
/-! PROOFS of the family "Display" (`43_display.md`): the frames of `CLS` and `DRW`, the flag of a draw that starts from
VF = 0, and the sprite bits row by row. -/

namespace Sys2Proof.Machine

/-! ### Frames -/

/-- Clearing the display changes no other element. -/
theorem sameExcept_clearPixels (s : State) : SameExcept [.fb] s s.clearPixels := by
  intro el h
  cases el with
  | fb => simp at h
  | v | mem | keys => exact fun _ => rfl
  | i | pc | stack | delayTimer | soundTimer | waitingForKey | keyRegister | fault => rfl

/-- A draw, whether it completes or raises, changes no element but the V registers, the pixels and the fault record. -/
theorem exec_drw_sameExcept {s t : State} {x y : VReg} {n : BitVec 4} (e : exec (.drwVxVyN x y n) s = .next t) :
    SameExcept [.v, .fb, .fault] s t := by
  obtain ⟨rest, _⟩ := exec_drw_cases e
  rw [rest]
  intro el h
  cases el with
  | v | fb | fault => simp at h
  | mem | keys => exact fun _ => rfl
  | i | pc | stack | delayTimer | soundTimer | waitingForKey | keyRegister => rfl

/-- A named element that reads the same in both states need not be named. -/
theorem SameExcept.drop_last {s t : State} {named : List Element} {el : Element} (h : SameExcept (named ++ [el]) s t)
    (hel : el.same s t) : SameExcept named s t := by
  intro el' hnot
  by_cases heq : el' = el
  · exact heq ▸ hel
  · exact h el' (by simp [hnot, heq])

/-! ### A draw from VF = 0 (`43_display.md` R121, R122) -/

section
variable {s t : State} {hits : Fin Config.rows → Fin Config.columns → Bool}

/-- VF after a draw is the collision, because the draw starts by clearing it. -/
theorem Drawn.readV_vf (d : Drawn s.clearCollision t hits) :
    t.readV vf = if ∃ p q, hits p q = true ∧ s.pixel p q = true then 1 else 0 := by
  split
  case isTrue hit => exact d.flag_set hit
  case isFalse miss =>
    have unlit : ∀ p q, hits p q = true → s.pixel p q = false := fun p q hb =>
      Bool.eq_false_iff.2 fun hs => miss ⟨p, q, hb, hs⟩
    exact (d.flag_keep unlit).trans (s.readV_writeV_same vf 0)

theorem Drawn.readV_vf_eq_one_iff (d : Drawn s.clearCollision t hits) :
    t.readV vf = 1 ↔ ∃ p q, hits p q = true ∧ s.pixel p q = true := by
  rw [d.readV_vf]
  split <;> simp [*]

theorem Drawn.readV_vf_eq_zero_or_one (d : Drawn s.clearCollision t hits) : t.readV vf = 0 ∨ t.readV vf = 1 := by
  rw [d.readV_vf]
  split
  · exact .inr rfl
  · exact .inl rfl

theorem Drawn.readV_of_ne_vf (d : Drawn s.clearCollision t hits) {r : VReg} (hr : r ≠ vf) : t.readV r = s.readV r :=
  (d.others r hr).trans (s.readV_writeV_other hr 0)

theorem Drawn.pixel_from_clearCollision (d : Drawn s.clearCollision t hits) (p : Fin Config.rows)
    (q : Fin Config.columns) : t.pixel p q = (s.pixel p q ^^ hits p q) := d.pixel p q

theorem Drawn.fault (d : Drawn s t hits) : t.fault = s.fault := by rw [d.rest]

end

/-! ### The sprite bits by row and column (`43_display.md` R122, R123) -/

section
variable {s : State} {x y : VReg} {n : BitVec 4} {p : Fin Config.rows} {q : Fin Config.columns}

/-- Sprite row `r` shows the byte at `I + r`, in the eight columns from x0 on. -/
theorem drawnBit_of_row {r : Nat} (hr : r < n.toNat) (hp : p.val = (s.readV y).toNat % 32 + r) :
    drawnBit s x y n p q = (decide ((s.readV x).toNat % 64 ≤ q.val ∧ q.val < (s.readV x).toNat % 64 + 8)
      && (s.mem.get (s.i.toNat + r)).getLsbD (7 - (q.val - (s.readV x).toNat % 64))) := by
  have hsub : p.val - (s.readV y).toNat % 32 = r := by omega
  have hrow : (s.readV y).toNat % 32 ≤ p.val ∧ p.val < (s.readV y).toNat % 32 + n.toNat := by omega
  rw [drawnBit, hsub]
  simp only [hrow, true_and]

/-- Nothing is laid above the first sprite row. -/
theorem drawnBit_of_row_lt (h : p.val < (s.readV y).toNat % 32) : drawnBit s x y n p q = false := by
  rw [drawnBit, decide_eq_false (by omega), Bool.false_and]

/-- Nothing is laid left of the first sprite column. -/
theorem drawnBit_of_column_lt (h : q.val < (s.readV x).toNat % 64) : drawnBit s x y n p q = false := by
  rw [drawnBit, decide_eq_false (by omega), Bool.false_and]

end

/-- A draw whose coordinates are not in VF, seen from the state after it: the sprite lies in memory as before and lays
the same bits. -/
theorem Drawn.sprite_same {s t : State} {x y : VReg} {n : BitVec 4} {hits : Fin Config.rows → Fin Config.columns → Bool}
    (d : Drawn s.clearCollision t hits) (hx : x ≠ vf) (hy : y ≠ vf) (h : SpriteInMemory s y n) :
    SpriteInMemory t y n ∧ drawnBit t x y n = drawnBit s x y n := by
  have hi : t.i = s.i := d.i
  refine ⟨?_, drawnBit_congr n (d.readV_of_ne_vf hx) (d.readV_of_ne_vf hy) hi d.mem⟩
  rw [SpriteInMemory, d.readV_of_ne_vf hy, hi]
  exact h

theorem State.get_of_memRead_ok {s : State} {a : Nat} {b : Byte} (h : s.memRead a = .ok b) : s.mem.get a = b := by
  rcases s.memRead_cases a with ⟨_, e⟩ | ⟨_, e⟩
  · exact Except.ok.inj (e.symm.trans h)
  · exact nomatch e.symm.trans h

/-! ### The obligations -/

/-- Settles O20. -/
theorem clsClearsEveryPixel : Obligations.ClsClearsEveryPixel := by
  unfold Obligations.ClsClearsEveryPixel
  exact fun s => ⟨_, exec_cls s, s.pixel_clearPixels, sameExcept_clearPixels s⟩

/-- Settles O21: the draw lays the bits of `drawnBit` on the display, from VF = 0. -/
theorem drwXorsTheVisibleSpriteBits : Obligations.DrwXorsTheVisibleSpriteBits := by
  unfold Obligations.DrwXorsTheVisibleSpriteBits
  intro x y n s h
  obtain ⟨t, e, d⟩ := exec_drw_drawn (x := x) h
  refine ⟨t, e, d.pixel_from_clearCollision, fun hit => ?one, fun miss => ?zero, fun r hr => d.readV_of_ne_vf hr,
    (exec_drw_sameExcept e).drop_last (el := .fault) d.fault⟩
  case one => rw [d.readV_vf, if_pos hit]
  case zero => rw [d.readV_vf, if_neg miss]

/-- Settles O22: the rows before `f` are drawn, then the read of row `f` raises. -/
theorem drwRaisesAtTheFirstRowOutsideMemory : Obligations.DrwRaisesAtTheFirstRowOutsideMemory := by
  unfold Obligations.DrwRaisesAtTheFirstRowOutsideMemory
  intro x y n f s hf hvisible hout hbefore
  obtain ⟨u, d, e⟩ := exec_drw_raises (x := x) hf hvisible hout hbefore
  exact ⟨_, e, rfl, fun r hr => d.readV_of_ne_vf hr, exec_drw_sameExcept e⟩

/-- Settles O23: with y0 = 30 only sprite rows 0 and 1 are on the display, with x0 = 60 only sprite columns 0 to 3. -/
theorem spritesClipAtTheEdges : Obligations.SpritesClipAtTheEdges := by
  unfold Obligations.SpritesClipAtTheEdges
  refine ⟨fun x y s hy hmem => ?bottom, fun x y n s hx h => ?right⟩
  case bottom =>
    have h : SpriteInMemory s y 4 := fun r _ hr => by omega
    obtain ⟨t, e, d⟩ := exec_drw_drawn (x := x) h
    refine ⟨t, _, _, e, d.fault, State.memRead_of_le (by omega), State.memRead_of_le hmem, fun p q hp => ?above,
      fun q => ?row30, fun q => ?row31⟩
    case above => rw [d.pixel_from_clearCollision, drawnBit_of_row_lt (hy ▸ hp), Bool.xor_false]
    case row30 =>
      rw [d.pixel_from_clearCollision, drawnBit_of_row (r := 0) (by decide) (by rw [hy]; rfl), Nat.add_zero s.i.toNat]
    case row31 => rw [d.pixel_from_clearCollision, drawnBit_of_row (r := 1) (by decide) (by rw [hy]; rfl)]
  case right =>
    obtain ⟨t, e, d⟩ := exec_drw_drawn (x := x) h
    refine ⟨t, e, fun p q hq => ?left, fun r b p q hr hp hb hq => ?column⟩
    case left => rw [d.pixel_from_clearCollision, drawnBit_of_column_lt (hx ▸ hq), Bool.xor_false]
    case column =>
      have hbit : 7 - (q.val - 60) = 67 - q.val := by omega
      have hcol : 60 ≤ q.val ∧ q.val < 60 + 8 := ⟨hq, Nat.lt_of_lt_of_le q.isLt (by decide)⟩
      rw [d.pixel_from_clearCollision, drawnBit_of_row hr hp, State.get_of_memRead_ok hb, hx, hbit, decide_eq_true hcol,
        Bool.true_and]

/-- Settles O24: both draws lay the same bits, so the second undoes the first, and it meets a lit pixel exactly where the
first met an unlit one. -/
theorem doubleDrawRestoresThePixels : Obligations.DoubleDrawRestoresThePixels := by
  unfold Obligations.DoubleDrawRestoresThePixels
  intro x y n s hx hy h
  obtain ⟨t, e, d⟩ := exec_drw_drawn (x := x) h
  obtain ⟨h', same⟩ := d.sprite_same hx hy h
  obtain ⟨u, e', d'⟩ := exec_drw_drawn (x := x) h'
  rw [same] at d'
  have turned : ∀ p q, drawnBit s x y n p q = true → (t.pixel p q = true ↔ s.pixel p q = false) := fun p q hb => by
    simp [d.pixel_from_clearCollision, hb]
  refine ⟨t, u, e, e', fun p q => ?restored, d.readV_vf_eq_one_iff, ?second, d.readV_vf_eq_zero_or_one,
    d'.readV_vf_eq_zero_or_one⟩
  case restored =>
    rw [d'.pixel_from_clearCollision, d.pixel_from_clearCollision, Bool.xor_assoc, Bool.xor_self, Bool.xor_false]
  case second =>
    rw [d'.readV_vf_eq_one_iff]
    exact exists_congr fun p => exists_congr fun q => and_congr_right (turned p q)

end Sys2Proof.Machine
end

section
/-! PROOFS of the family "Keypad" (`44_keypad.md`), first part: how frames combine, the elements that each instruction may
write, and the key that a refresh delivers. -/

namespace Sys2Proof.Machine

/-! ### Combining frames -/

theorem Element.same_trans {s t u : State} {el : Element} (h : el.same s t) (h' : el.same t u) : el.same s u := by
  cases el with
  | v | mem | keys => exact fun a => (h' a).trans (h a)
  | fb => exact fun p q => (h' p q).trans (h p q)
  | i | pc | stack | delayTimer | soundTimer | waitingForKey | keyRegister | fault => exact Eq.trans h' h

section
variable {s t u : State} {named named' : List Element}

theorem SameExcept.trans (h : SameExcept named s t) (h' : SameExcept named t u) : SameExcept named s u :=
  fun el hel => Element.same_trans (h el hel) (h' el hel)

theorem SameExcept.mono (h : SameExcept named s t) (hsub : named ⊆ named') : SameExcept named' s t :=
  fun el hel => h el fun hmem => hel (hsub hmem)

/-- One change after the other changes at most what either names. -/
theorem SameExcept.append (h : SameExcept named s t) (h' : SameExcept named' t u) :
    SameExcept (named ++ named') s u :=
  (h.mono (List.subset_append_left named named')).trans (h'.mono (List.subset_append_right named named'))

end

/-! ### Frames of the updates of the keypad and of delay_timer -/

/-- Beginning a key-wait changes the wait and its destination only. -/
theorem sameExcept_suspend (s : State) (x : VReg) : SameExcept [.waitingForKey, .keyRegister] s (s.suspend x) := by
  intro el h
  cases el with
  | waitingForKey | keyRegister => simp at h
  | v | mem | keys => exact fun _ => rfl
  | fb => exact fun _ _ => rfl
  | i | pc | stack | delayTimer | soundTimer | fault => rfl

/-- Overwriting the key states changes no other element. -/
theorem sameExcept_setKeys (s : State) (k : Vector Bool 16) : SameExcept [.keys] s (s.setKeys k) := by
  intro el h
  cases el with
  | keys => simp at h
  | v | mem => exact fun _ => rfl
  | fb => exact fun _ _ => rfl
  | i | pc | stack | delayTimer | soundTimer | waitingForKey | keyRegister | fault => rfl

/-- Ending a key-wait changes no element but the wait. -/
theorem sameExcept_endWait (s : State) : SameExcept [.waitingForKey] s { s with waitingForKey := false } := by
  intro el h
  cases el with
  | waitingForKey => simp at h
  | v | mem | keys => exact fun _ => rfl
  | fb => exact fun _ _ => rfl
  | i | pc | stack | delayTimer | soundTimer | keyRegister | fault => rfl

/-- Writing delay_timer changes no other element. -/
theorem sameExcept_setDelay (s : State) (b : Byte) : SameExcept [.delayTimer] s (s.setDelay b) := by
  intro el h
  cases el with
  | delayTimer => simp at h
  | v | mem | keys => exact fun _ => rfl
  | fb => exact fun _ _ => rfl
  | i | pc | stack | soundTimer | waitingForKey | keyRegister | fault => rfl

/-! ### The elements that an instruction may write -/

/-- The elements that some execution of the instruction can change. -/
def footprint : Instr → List Element
  | .cls => [.fb]
  | .ret => [.pc, .stack, .fault]
  | .jp _ => [.pc]
  | .call _ => [.pc, .stack]
  | .seVxNn _ _ => [.pc]
  | .ldVxNn _ _ | .addVxNn _ _ | .ldVxDt _ => [.v]
  | .ldINnn _ => [.i]
  | .drwVxVyN _ _ _ => [.v, .fb, .fault]
  | .skpVx _ | .sknpVx _ => [.pc, .fault]
  | .ldVxK _ => [.waitingForKey, .keyRegister]
  | .ldDtVx _ => [.delayTimer]
  | .ldStVx _ => [.soundTimer]
  | .unknownOpcode _ => []

/-- A skip, taken or not, changes pc only. -/
theorem sameExcept_skip (s : State) (taken : Prop) [Decidable taken] :
    SameExcept [.pc] s (if taken then s.skipNext else s) := by
  split
  · exact sameExcept_setPc s _
  · exact SameExcept.refl _ s

/-- The frame of every instruction. -/
theorem exec_sameExcept_footprint {i : Instr} {s t : State} (e : exec i s = .next t) :
    SameExcept (footprint i) s t := by
  cases i with
  | ret =>
    rcases exec_ret_cases e with ⟨a, rest, _, rfl⟩ | ⟨_, rfl⟩
    · exact (sameExcept_setStack_setPc s rest a).mono (by simp [footprint])
    · exact (sameExcept_raise s _).mono (by simp [footprint])
  | drwVxVyN x y n => exact exec_drw_sameExcept e
  | skpVx x =>
    rcases exec_skp_cases e with ⟨k, _, rfl⟩ | ⟨_, rfl⟩
    · exact (sameExcept_skip s _).mono (by simp [footprint])
    · exact (sameExcept_raise s _).mono (by simp [footprint])
  | sknpVx x =>
    rcases exec_sknp_cases e with ⟨k, _, rfl⟩ | ⟨_, rfl⟩
    · rw [← ite_not]
      exact (sameExcept_skip s _).mono (by simp [footprint])
    · exact (sameExcept_raise s _).mono (by simp [footprint])
  | cls =>
    obtain rfl := Host.Outcome.next.inj e
    exact sameExcept_clearPixels s
  | jp nnn =>
    obtain rfl := Host.Outcome.next.inj e
    exact sameExcept_setPc s _
  | call nnn =>
    obtain rfl := Host.Outcome.next.inj e
    exact sameExcept_setStack_setPc s _ _
  | seVxNn x nn =>
    obtain rfl := Host.Outcome.next.inj e
    exact sameExcept_skip s _
  | ldVxNn | addVxNn | ldVxDt =>
    obtain rfl := Host.Outcome.next.inj e
    exact sameExcept_writeV s _ _
  | ldINnn nnn =>
    obtain rfl := Host.Outcome.next.inj e
    exact sameExcept_setI s _
  | ldVxK x =>
    obtain rfl := Host.Outcome.next.inj e
    exact sameExcept_suspend s x
  | ldDtVx x =>
    obtain rfl := Host.Outcome.next.inj e
    exact sameExcept_setDelay s _
  | ldStVx x =>
    obtain rfl := Host.Outcome.next.inj e
    exact sameExcept_setSound s _
  | unknownOpcode w =>
    obtain rfl := Host.Outcome.next.inj e
    exact SameExcept.refl _ s

/-- An instruction that is not `LD Vx, K` begins no key-wait and keeps the destination of the last one. -/
theorem exec_keeps_wait {i : Instr} {s t : State} (hi : ∀ x, i ≠ .ldVxK x) (e : exec i s = .next t) :
    t.waitingForKey = s.waitingForKey ∧ t.keyRegister = s.keyRegister := by
  obtain ⟨hwait, hreg⟩ : .waitingForKey ∉ footprint i ∧ .keyRegister ∉ footprint i := by
    cases i with
    | ldVxK x => exact absurd rfl (hi x)
    | cls | ret | jp | call | seVxNn | ldVxNn | addVxNn | ldINnn | drwVxVyN | skpVx | sknpVx | ldDtVx | ldStVx | ldVxDt
    | unknownOpcode => simp [footprint]
  have frame := exec_sameExcept_footprint e
  exact ⟨frame _ hwait, frame _ hreg⟩

/-! ### The step of a known instruction -/

/-- A step of a machine that can fetch runs its current instruction on the advanced pc. -/
theorem step_of_current {i : Instr} {s : State} (h : s.running) (hc : s.current = some i) :
    step s = endCycle (exec i s.advancePc) := by
  cases hf : s.fetch with
  | error f => simp [State.current, hf] at hc
  | ok op =>
    obtain rfl : decodeWord op = i := by simpa [State.current, hf] using hc
    exact step_of_fetch h hf

/-- A step in a key-wait changes nothing (`40_cycle.md` R97). -/
theorem step_of_waiting {s : State} (hf : s.fault = none) (hw : s.waitingForKey = true) : step s = .next s := by
  simp [step, hf, hw]

/-! ### The first held key of an order (`44_keypad.md` R134, R135) -/

section
variable {order : Equiv.Perm Key} {k : Vector Bool 16} {j : Key}

/-- Keys are visited by their place in the order. -/
theorem visitOrder_pairwise (order : Equiv.Perm Key) :
    (visitOrder order).Pairwise fun a b => order.symm a < order.symm b := by
  simpa [visitOrder, List.pairwise_map] using List.pairwise_lt_finRange 16

/-- No held key stands before the first one. -/
theorem firstHeld_le (h : firstHeld order k = some j) {j' : Key} (hj' : k[j'.val] = true) :
    order.symm j ≤ order.symm j' := by
  obtain ⟨_, before, after, hsplit, hbefore⟩ := List.find?_eq_some_iff_append.1 h
  have hmem : j' ∈ before ++ j :: after := hsplit ▸ mem_visitOrder order j'
  have hsorted := hsplit ▸ visitOrder_pairwise order
  rcases List.mem_append.1 hmem with hin | hin
  · simpa [hj'] using hbefore j' hin
  · rcases List.mem_cons.1 hin with rfl | hin
    · exact le_rfl
    · exact le_of_lt (List.rel_of_pairwise_cons (List.pairwise_append.1 hsorted).2.1 hin)

theorem exists_firstHeld (order : Equiv.Perm Key) (h : ∃ j : Key, k[j.val] = true) :
    ∃ j, firstHeld order k = some j := by
  rw [← Option.ne_none_iff_exists', Ne, firstHeld_eq_none]
  simpa using h

/-- The only held key is the first one in every order. -/
theorem firstHeld_of_single (order : Equiv.Perm Key) (hj : k[j.val] = true)
    (hothers : ∀ j' : Key, j' ≠ j → k[j'.val] = false) : firstHeld order k = some j := by
  obtain ⟨j', h⟩ := exists_firstHeld order ⟨j, hj⟩
  have heq : j' = j := by
    by_contra hne
    simpa [hothers j' hne] using firstHeld_held h
  exact heq ▸ h

end

/-! ### What a refresh does (`44_keypad.md` R133 to R136) -/

/-- The state after a refresh with the key states `k` that ends a key-wait by delivering key `j`. -/
def State.deliverKey (s : State) (k : Vector Bool 16) (j : Key) : State :=
  { (s.setKeys k).writeV s.keyRegister (BitVec.ofNat 8 j.val) with waitingForKey := false }

section
variable (s : State) (k : Vector Bool 16) (j : Key)

/-- The next cycle fetches again. -/
theorem State.running_deliverKey (hf : s.fault = none) : (s.deliverKey k j).running := ⟨hf, rfl⟩

@[simp] theorem State.keyHeld_deliverKey (q : Key) : (s.deliverKey k j).keyHeld q = k[q.val] := rfl

theorem State.readV_deliverKey_same : (s.deliverKey k j).readV s.keyRegister = BitVec.ofNat 8 j.val :=
  (s.setKeys k).readV_writeV_same s.keyRegister _

theorem State.readV_deliverKey_other {r : VReg} (hr : r ≠ s.keyRegister) : (s.deliverKey k j).readV r = s.readV r :=
  (s.setKeys k).readV_writeV_other hr _

theorem sameExcept_deliverKey : SameExcept [.keys, .v, .waitingForKey] s (s.deliverKey k j) :=
  ((sameExcept_setKeys s k).append (sameExcept_writeV _ s.keyRegister _)).append (sameExcept_endWait _)

end

section
variable {order : Equiv.Perm Key} {k : Vector Bool 16} {s : State}

theorem inputRefreshWith_of_faulted (order : Equiv.Perm Key) (k : Vector Bool 16) (hf : s.fault ≠ none) :
    inputRefreshWith order k s = s := by
  simp [inputRefreshWith, Option.isSome_iff_ne_none.2 hf]

/-- Outside a key-wait a refresh overwrites the key states. -/
theorem inputRefreshWith_of_running (order : Equiv.Perm Key) (k : Vector Bool 16) (h : s.running) :
    inputRefreshWith order k s = s.setKeys k := by
  simp [inputRefreshWith, h.1, h.2]

/-- With no key held a refresh overwrites the key states, in a key-wait or outside one. -/
theorem inputRefreshWith_of_noneHeld (order : Equiv.Perm Key) (hf : s.fault = none)
    (hk : ∀ j : Key, k[j.val] = false) : inputRefreshWith order k s = s.setKeys k := by
  simp [inputRefreshWith, State.resolveWait, hf, (firstHeld_eq_none order k).2 hk]

/-- In a key-wait a refresh delivers the first held key. -/
theorem inputRefreshWith_of_firstHeld {j : Key} (hf : s.fault = none) (hw : s.waitingForKey = true)
    (hj : firstHeld order k = some j) : inputRefreshWith order k s = s.deliverKey k j := by
  simp [inputRefreshWith, State.resolveWait, State.deliverKey, hf, hw, hj]

/-- A refresh depends on the order only through the first held key. -/
theorem inputRefreshWith_congr {order' : Equiv.Perm Key} (h : firstHeld order k = firstHeld order' k) (s : State) :
    inputRefreshWith order k s = inputRefreshWith order' k s := by
  simp [inputRefreshWith, State.resolveWait, h]

/-- Without a fault a refresh sets the key states, and may deliver a key. -/
theorem inputRefreshWith_setKeys_or_deliverKey (order : Equiv.Perm Key) (k : Vector Bool 16) (hf : s.fault = none) :
    inputRefreshWith order k s = s.setKeys k ∨ ∃ j, inputRefreshWith order k s = s.deliverKey k j := by
  rcases inputRefreshWith_cases order k s with ⟨hne, _⟩ | ⟨_, _, e⟩ | ⟨_, _, j, _, e⟩
  · exact absurd hf hne
  · exact .inl e
  · exact .inr ⟨j, e⟩

end

/-! ### Events in a key-wait (`44_keypad.md` R139) -/

/-- A cycle or a refresh with no held key, in a key-wait, is accepted and changes only the key states. -/
theorem deliver_in_wait {e : Event} {m : Session} (hf : m.core.fault = none) (hw : m.core.waitingForKey = true)
    (he : e = .cycle ∨ ∃ k : Vector Bool 16, e = .inputRefresh k ∧ ∀ j : Key, k[j.val] = false) :
    ∃ m', deliver e m = .next m' ∧ SameExcept [.keys] m.core m'.core := by
  rcases he with rfl | ⟨k, rfl, hk⟩
  · exact ⟨⟨m.core, true⟩, by rw [deliver, deliverCycle, step_of_waiting hf hw], SameExcept.refl _ m.core⟩
  · refine ⟨_, rfl, ?_⟩
    rw [inputRefresh, inputRefreshWith_of_noneHeld _ hf hk]
    exact sameExcept_setKeys m.core k

end Sys2Proof.Machine
end

section
/-! PROOFS of the family "Keypad", second part: its obligations. -/

namespace Sys2Proof.Machine

/-- Settles O28: in the two cases without a fault the key states are the argument's; only the delivery writes more. -/
theorem inputRefreshOverwritesAllKeys : Obligations.InputRefreshOverwritesAllKeys := by
  unfold Obligations.InputRefreshOverwritesAllKeys
  refine fun order k s => ⟨inputRefreshWith_of_faulted order k, fun hf => ?always, fun hf hw => ?outsideWait⟩
  case always =>
    rcases inputRefreshWith_setKeys_or_deliverKey order k hf with e | ⟨j, e⟩ <;> rw [e]
    · exact ⟨s.keyHeld_setKeys k, (sameExcept_setKeys s k).mono (by simp), fun _ _ => rfl⟩
    · exact ⟨s.keyHeld_deliverKey k j, sameExcept_deliverKey s k j, fun _ => s.readV_deliverKey_other k j⟩
  case outsideWait =>
    rw [inputRefreshWith_of_running order k ⟨hf, hw⟩]
    exact sameExcept_setKeys s k

/-- Settles O29: the delivered key is the first held key of the order. -/
theorem heldKeyResolvesTheWait : Obligations.HeldKeyResolvesTheWait := by
  unfold Obligations.HeldKeyResolvesTheWait
  refine fun order k s hf hw => ⟨fun hheld => ?held, fun hnone => ?noneHeld⟩
  case held =>
    obtain ⟨j, hj⟩ := exists_firstHeld order hheld
    have hvalue : (BitVec.ofNat 8 j.val).toNat = j.val := by rw [BitVec.toNat_ofNat, Nat.mod_eq_of_lt (by omega)]
    rw [inputRefreshWith_of_firstHeld hf hw hj]
    exact ⟨j, firstHeld_held hj, fun _ => firstHeld_le hj, by rw [s.readV_deliverKey_same, hvalue],
      fun _ => s.readV_deliverKey_other k j, s.running_deliverKey k j hf, sameExcept_deliverKey s k j⟩
  case noneHeld =>
    rw [inputRefreshWith_of_noneHeld order hf hnone]
    exact ⟨hw, sameExcept_setKeys s k⟩

/-- Settles O30: every order finds the same first held key. -/
theorem singleHeldKeyWinsInEveryOrder : Obligations.SingleHeldKeyWinsInEveryOrder := by
  unfold Obligations.SingleHeldKeyWinsInEveryOrder
  intro order order' k j s hj hothers
  have hfirst (o : Equiv.Perm Key) : firstHeld o k = some j := firstHeld_of_single o hj hothers
  refine ⟨inputRefreshWith_congr ((hfirst order).trans (hfirst order').symm) s, fun hf hw => ?_⟩
  rw [inputRefreshWith_of_firstHeld hf hw (hfirst order), s.readV_deliverKey_same]

/-- Settles O31, by induction on the events: after each of them the machine still stands in the same key-wait. -/
theorem waitFreezesAllButTheKeys : Obligations.WaitFreezesAllButTheKeys := by
  unfold Obligations.WaitFreezesAllButTheKeys
  intro events
  induction events with
  | nil => exact fun m _ _ _ => ⟨m, rfl, SameExcept.refl _ m.core⟩
  | cons e rest ih =>
    intro m hf hw hall
    obtain ⟨he, hrest⟩ := List.forall_mem_cons.1 hall
    obtain ⟨m₁, hd, frame⟩ := deliver_in_wait hf hw he
    have hf₁ : m₁.core.fault = none := (frame .fault (by simp)).trans hf
    have hw₁ : m₁.core.waitingForKey = true := (frame .waitingForKey (by simp)).trans hw
    obtain ⟨m₂, hds, frame'⟩ := ih m₁ hf₁ hw₁ hrest
    exact ⟨m₂, by rw [deliverAll, hd]; exact hds, frame.trans frame'⟩

/-- Settles O32: `LD Vx, K` is the one instruction that touches the wait, and in WAIT the first held key, if there is one,
ends it. -/
theorem keyWaitMachineTransitions : Obligations.KeyWaitMachineTransitions := by
  unfold Obligations.KeyWaitMachineTransitions
  refine ⟨fun s t i h hi => ?fromRun, fun s t hf hw e => ?cycleInWait, fun k s h => ?refreshInRun,
    fun k s hf hw => ?refreshInWait⟩
  case fromRun =>
    obtain ⟨u, hx, _, rfl⟩ := executedCycle_cases h hi
    refine ⟨?enters, fun hne => ?stays⟩
    case enters =>
      rintro x rfl
      obtain rfl := Host.Outcome.next.inj hx
      exact ⟨rfl, rfl⟩
    case stays =>
      obtain ⟨hwait, hreg⟩ := exec_keeps_wait hne hx
      exact ⟨hwait.trans h.1.2, hreg⟩
  case cycleInWait => exact Host.Outcome.next.inj (e.symm.trans (step_of_waiting hf hw))
  case refreshInRun =>
    rw [inputRefresh, inputRefreshWith_of_running _ k h]
    exact h
  case refreshInWait =>
    rw [inputRefresh]
    by_cases hheld : ∃ j : Key, k[j.val] = true
    · obtain ⟨j, hj⟩ := exists_firstHeld Config.keyOrder hheld
      rw [inputRefreshWith_of_firstHeld hf hw hj]
      obtain ⟨hfault, hwait⟩ := s.running_deliverKey k j hf
      exact ⟨hfault, iff_of_true hwait hheld⟩
    · have hnone : ∀ j : Key, k[j.val] = false := by simpa using hheld
      rw [inputRefreshWith_of_noneHeld _ hf hnone]
      exact ⟨hf, iff_of_false (by simp [hw]) hheld⟩

/-- Settles O25: a key index names one key, whose state decides the skip; a larger value raises. -/
theorem skpSkipsExactlyWhenHeld : Obligations.SkpSkipsExactlyWhenHeld := by
  unfold Obligations.SkpSkipsExactlyWhenHeld
  refine fun x s => ⟨fun k hk => ?key, fun hbig => ?raises⟩
  case key => exact ⟨_, exec_skpVx_key hk.symm, apply_ite State.pc _ _ _, sameExcept_skip s _⟩
  case raises => exact ⟨_, exec_skpVx_raise hbig, rfl, sameExcept_raise s _⟩

/-- Settles O26: as for SKP, with the branches the other way round. -/
theorem sknpSkipsExactlyWhenNotHeld : Obligations.SknpSkipsExactlyWhenNotHeld := by
  unfold Obligations.SknpSkipsExactlyWhenNotHeld
  refine fun x s => ⟨fun k hk => ?key, fun hbig => ?raises⟩
  case key =>
    refine ⟨_, exec_sknpVx_key hk.symm, apply_ite State.pc _ _ _, ?_⟩
    rw [← ite_not]
    exact sameExcept_skip s _
  case raises => exact ⟨_, exec_sknpVx_raise hbig, rfl, sameExcept_raise s _⟩

/-- Settles O27: the suspension writes neither pc nor a timer, so its cycle ends as the suspended state's advance and
tick. -/
theorem ldVxKEntersTheWait : Obligations.LdVxKEntersTheWait := by
  unfold Obligations.LdVxKEntersTheWait
  refine ⟨fun x s => ⟨_, exec_ldVxK x s, rfl, rfl, sameExcept_suspend s x⟩, fun x s h hc => ?cycle⟩
  case cycle =>
    have hstep : step s = .next (s.suspend x).advancePc.tick := by
      rw [step_of_current h hc, exec_ldVxK, endCycle_next, State.endCycle_of_none (s := s.advancePc.suspend x) h.1]
      rfl
    exact ⟨_, hstep, rfl, rfl, rfl, decrement_toNat _, decrement_toNat _,
      (sameExcept_suspend s x).append (sameExcept_advancePc_tick _)⟩

end Sys2Proof.Machine
end

section
/-! PROOFS of the family "Timers" (`45_timers.md`): the end of a cycle timer by timer, and the countdown along a stretch of a
run. -/

namespace Sys2Proof.Machine

/-! ### The end of a cycle that does not fault (`40_cycle.md` R96) -/

section
variable {s : State}

theorem State.endCycle_delayTimer_toNat (h : s.fault = none) :
    s.endCycle.delayTimer.toNat = s.delayTimer.toNat - 1 := by
  rw [State.endCycle_of_none h, State.tick_delayTimer, decrement_toNat]

theorem State.endCycle_soundTimer_toNat (h : s.fault = none) :
    s.endCycle.soundTimer.toNat = s.soundTimer.toNat - 1 := by
  rw [State.endCycle_of_none h, State.tick_soundTimer, decrement_toNat]

theorem State.readV_endCycle (h : s.fault = none) (r : VReg) : s.endCycle.readV r = s.readV r := by
  rw [State.endCycle_of_none h, State.readV_tick]

theorem soundActive_iff : soundActive s = true ↔ 0 < s.soundTimer.toNat := decide_eq_true_iff

end

/-! ### The countdown (`45_timers.md` R148, R149) -/

/-- A refresh writes neither timer. -/
theorem inputRefresh_keeps_timers (k : Vector Bool 16) (s : State) :
    (inputRefresh k s).delayTimer = s.delayTimer ∧ (inputRefresh k s).soundTimer = s.soundTimer := by
  rcases inputRefreshWith_cases Config.keyOrder k s with ⟨_, e⟩ | ⟨_, _, e⟩ | ⟨_, _, _, _, e⟩ <;>
    rw [inputRefresh, e] <;> exact ⟨rfl, rfl⟩

/-- A timer that falls in every executed cycle without a write to it, and that nothing else in a stretch moves, falls by the
count of the stretch. -/
theorem TimerRun.countdown {writes : Instr → Prop} {timer : State → Byte} {j : Nat} {u t : State}
    (hexecuted : ∀ {s s' : State} {i : Instr}, ExecutedCycle s s' → s.current = some i → ¬ writes i →
      (timer s').toNat = (timer s).toNat - 1)
    (hsuspended : ∀ {s s' : State}, step s = .next s' → s.waitingForKey = true → timer s' = timer s)
    (hrefreshed : ∀ k s, timer (inputRefresh k s) = timer s)
    (h : TimerRun writes j u t) : (timer t).toNat = (timer u).toNat - j := by
  induction h with
  | done s => rfl
  | executed hcycle hwrites _ ih =>
    obtain ⟨i, hi⟩ := executedCycle_current hcycle
    rw [ih, hexecuted hcycle hi (hwrites i hi)]
    omega
  | suspended hw e _ ih => rw [ih, hsuspended e hw]
  | refreshed k _ ih => rw [ih, hrefreshed]

section
variable {j : Nat} {u t : State}

theorem TimerRun.delayTimer_toNat (h : TimerRun (fun i => ∃ y, i = .ldDtVx y) j u t) :
    t.delayTimer.toNat = u.delayTimer.toNat - j := by
  refine TimerRun.countdown (timer := State.delayTimer) (fun hcycle hi hne => ?_)
    (fun e hw => (step_keeps_timers e (.inl hw)).1) (fun k s => (inputRefresh_keeps_timers k s).1) h
  obtain ⟨_, hdelay, _⟩ := everyExecutedCycleTicksBothTimers.1 _ _ _ hcycle hi
  exact hdelay (not_exists.1 hne)

theorem TimerRun.soundTimer_toNat (h : TimerRun (fun i => ∃ y, i = .ldStVx y) j u t) :
    t.soundTimer.toNat = u.soundTimer.toNat - j := by
  refine TimerRun.countdown (timer := State.soundTimer) (fun hcycle hi hne => ?_)
    (fun e hw => (step_keeps_timers e (.inl hw)).2) (fun k s => (inputRefresh_keeps_timers k s).2) h
  obtain ⟨_, _, _, hsound⟩ := everyExecutedCycleTicksBothTimers.1 _ _ _ hcycle hi
  exact hsound (not_exists.1 hne)

end

/-! ### The obligations -/

/-- Settles O35: the tick changes no register, and `exec_setSound` says that no instruction looks at sound_timer. -/
theorem ldVxDtReadsTheDelayTimer : Obligations.LdVxDtReadsTheDelayTimer := by
  unfold Obligations.LdVxDtReadsTheDelayTimer
  refine ⟨fun x s => ?reads, fun i s t b e => ?ignoresSound⟩
  case reads =>
    have hx : (s.writeV x s.delayTimer).readV x = s.delayTimer := s.readV_writeV_same x _
    refine ⟨_, exec_ldVxDt x s, hx, fun r hr => s.readV_writeV_other hr _, sameExcept_writeV s x _, fun hf => ⟨?_, ?_⟩⟩
    · exact (State.readV_endCycle (s := s.writeV x _) hf x).trans hx
    · exact State.endCycle_delayTimer_toNat (s := s.writeV x _) hf
  case ignoresSound =>
    obtain ⟨c, hc⟩ := exec_setSound b e
    exact ⟨t.setSound c, hc, sameExcept_setSound t c⟩

/-- Settles O36: the writing cycle leaves V[x] - 1, and the stretch counts down from there. -/
theorem delayTimerCountsExecutedCycles : Obligations.DelayTimerCountsExecutedCycles := by
  unfold Obligations.DelayTimerCountsExecutedCycles
  intro x j s u t hi hcycle hrun
  obtain ⟨hwritten, _⟩ := everyExecutedCycleTicksBothTimers.1 s u _ hcycle hi
  rw [hrun.delayTimer_toNat, hwritten x rfl]

/-- Settles O37: the writing cycle leaves V[x] - 1, and the line is active while the count down from there is above 0. -/
theorem soundLineLastsItsCount : Obligations.SoundLineLastsItsCount := by
  unfold Obligations.SoundLineLastsItsCount
  intro x j s u t hi hcycle hrun
  obtain ⟨_, _, hwritten, _⟩ := everyExecutedCycleTicksBothTimers.1 s u _ hcycle hi
  rw [soundActive_iff, hrun.soundTimer_toNat, hwritten x rfl]
  omega

/-- Settles O33. -/
theorem ldDtVxWritesTheDelayTimer : Obligations.LdDtVxWritesTheDelayTimer := by
  unfold Obligations.LdDtVxWritesTheDelayTimer
  refine fun x s => ⟨_, exec_ldDtVx x s, rfl, sameExcept_setDelay s _, fun hf => ⟨?delay, ?sound⟩⟩
  case delay => exact State.endCycle_delayTimer_toNat (s := s.setDelay _) hf
  case sound => exact State.endCycle_soundTimer_toNat (s := s.setDelay _) hf

/-- Settles O34: the line is active after the cycle when V[x] - 1 is above 0. -/
theorem ldStVxWritesTheSoundTimer : Obligations.LdStVxWritesTheSoundTimer := by
  unfold Obligations.LdStVxWritesTheSoundTimer
  refine fun x s => ⟨_, exec_ldStVx x s, rfl, sameExcept_setSound s _, fun hf => ?afterTick⟩
  have hsound : (s.setSound (s.readV x)).endCycle.soundTimer.toNat = (s.readV x).toNat - 1 :=
    State.endCycle_soundTimer_toNat (s := s.setSound _) hf
  refine ⟨hsound, State.endCycle_delayTimer_toNat (s := s.setSound _) hf, ?active⟩
  rw [soundActive_iff, hsound]
  omega

end Sys2Proof.Machine
end

section
/-! PROOFS of the family "Exceptions" (`60_exceptions.md`): what an instruction can do to the fault record, which instruction
writes which element, and what an event does in the faulted state. -/

namespace Sys2Proof.Machine

/-! ### The fault record after an instruction (`60_exceptions.md` R161 to R163) -/

/-- All that an instruction can do to the fault record: keep it, or record the fault of `RET` on an empty stack, of a draw
whose row `r` is the first outside memory, or of a key index above 15. -/
theorem exec_fault_cases {i : Instr} {s t : State} (e : exec i s = .next t) :
    t.fault = s.fault ∨
    (i = .ret ∧ s.stack = [] ∧ t.fault = some .stackUnderflow) ∨
    (∃ x y n r, i = .drwVxVyN x y n ∧ r < n.toNat ∧ 0xFFF < s.i.toNat + r ∧ (∀ q, q < r → s.i.toNat + q ≤ 0xFFF) ∧
      t.fault = some (.memoryBounds (s.i.toNat + r))) ∨
    (∃ x, (i = .skpVx x ∨ i = .sknpVx x) ∧ 15 < (s.readV x).toNat ∧ t.fault = some (.keyIndex (s.readV x))) := by
  cases i with
  | ret =>
    rcases exec_ret_cases e with ⟨_, _, _, rfl⟩ | ⟨hs, rfl⟩
    · exact .inl rfl
    · exact .inr (.inl ⟨rfl, hs, rfl⟩)
  | drwVxVyN x y n =>
    rcases exec_drw_fault_cases e with hkeep | ⟨r, hr⟩
    · exact .inl hkeep
    · exact .inr (.inr (.inl ⟨x, y, n, r, rfl, hr⟩))
  | skpVx x =>
    rcases exec_skp_cases e with ⟨k, _, rfl⟩ | ⟨hv, rfl⟩
    · exact .inl (sameExcept_skip s _ .fault (by simp))
    · exact .inr (.inr (.inr ⟨x, .inl rfl, hv, rfl⟩))
  | sknpVx x =>
    rcases exec_sknp_cases e with ⟨k, _, rfl⟩ | ⟨hv, rfl⟩
    · rw [← ite_not]
      exact .inl (sameExcept_skip s _ .fault (by simp))
    · exact .inr (.inr (.inr ⟨x, .inr rfl, hv, rfl⟩))
  | cls | jp | call | seVxNn | ldVxNn | addVxNn | ldINnn | ldVxK | ldDtVx | ldStVx | ldVxDt | unknownOpcode =>
    exact .inl (exec_sameExcept_footprint e .fault (by simp [footprint]))

/-! ### The cycle that ends in a fault (`60_exceptions.md` R161, R162) -/

/-- The only fault of a fetch is the read outside memory. -/
theorem State.fetch_error_memoryBounds {s : State} {f : Fault} (h : s.fetch = .error f) : ∃ a, f = .memoryBounds a := by
  rcases s.fetch_cases with ⟨_, e⟩ | ⟨_, e⟩ | ⟨_, e⟩ <;> rw [e] at h <;> cases h
  · exact ⟨_, rfl⟩
  · exact ⟨_, rfl⟩

theorem State.current_of_fetch {s : State} {op : Word} (h : s.fetch = .ok op) : s.current = some (decodeWord op) := by
  simp [State.current, h]

/-- The cycle of a `RET` on an empty stack is the advance and the fault, without the tick. -/
theorem step_of_fetch_ret_nil {s : State} (h : s.running) (hf : s.fetch = .ok 0x00EE) (hs : s.stack = []) :
    step s = .next (s.advancePc.raise .stackUnderflow) := by
  have hret : decodeWord 0x00EE = .ret := rfl
  rw [step_of_fetch h hf, hret, exec_ret_nil (s := s.advancePc) hs, endCycle_next, State.endCycle_of_some rfl]

/-- A step that records StackUnderflow executed `RET` on an empty stack: a fetch raises another fault, and so does every
other instruction. -/
theorem ret_nil_of_step_stackUnderflow {s t : State} (hs : s.fault = none) (e : step s = .next t)
    (ht : t.fault = some .stackUnderflow) : s.current = some .ret ∧ s.stack = [] := by
  rcases step_cases s with ⟨hne, _⟩ | ⟨_, _, e'⟩ | ⟨_, f, hf, e'⟩ | ⟨_, op, u, hf, hx, e'⟩
  · exact absurd hs hne
  · obtain rfl := Host.Outcome.next.inj (e.symm.trans e')
    exact nomatch hs.symm.trans ht
  · obtain rfl := Host.Outcome.next.inj (e.symm.trans e')
    obtain ⟨a, rfl⟩ := State.fetch_error_memoryBounds hf
    exact nomatch ht
  · obtain rfl := Host.Outcome.next.inj (e.symm.trans e')
    rw [State.endCycle_fault] at ht
    rcases exec_fault_cases hx with hkeep | ⟨hret, hstack, _⟩ | ⟨_, _, _, _, _, _, _, _, hf'⟩ | ⟨_, _, _, hf'⟩
    · exact nomatch (hkeep.trans hs).symm.trans ht
    · exact ⟨hret ▸ State.current_of_fetch hf, hstack⟩
    · exact nomatch hf'.symm.trans ht
    · exact nomatch hf'.symm.trans ht

/-! ### Which instruction writes which element (`10_state.md` section 5) -/

section
variable {i : Instr} {s t : State}

/-- A changed element is one that the instruction may write. -/
theorem mem_footprint_of_changed {el : Element} (e : exec i s = .next t) (h : ¬ el.same s t) : el ∈ footprint i :=
  by_contra fun hel => h (exec_sameExcept_footprint e el hel)

theorem writer_of_pc_mem_footprint (h : .pc ∈ footprint i) : i = .ret ∨ (∃ nnn, i = .jp nnn) ∨ (∃ nnn, i = .call nnn) ∨
    (∃ x nn, i = .seVxNn x nn) ∨ (∃ x, i = .skpVx x) ∨ ∃ x, i = .sknpVx x := by
  cases i with
  | ret | jp | call | seVxNn | skpVx | sknpVx => simp
  | cls | ldVxNn | addVxNn | ldINnn | drwVxVyN | ldVxK | ldDtVx | ldStVx | ldVxDt | unknownOpcode => simp [footprint] at h

theorem writer_of_stack_mem_footprint (h : .stack ∈ footprint i) : i = .ret ∨ ∃ nnn, i = .call nnn := by
  cases i with
  | ret | call => simp
  | cls | jp | seVxNn | ldVxNn | addVxNn | ldINnn | drwVxVyN | skpVx | sknpVx | ldVxK | ldDtVx | ldStVx | ldVxDt
  | unknownOpcode => simp [footprint] at h

theorem writer_of_fb_mem_footprint (h : .fb ∈ footprint i) : i = .cls ∨ ∃ x y n, i = .drwVxVyN x y n := by
  cases i with
  | cls | drwVxVyN => simp
  | ret | jp | call | seVxNn | ldVxNn | addVxNn | ldINnn | skpVx | sknpVx | ldVxK | ldDtVx | ldStVx | ldVxDt
  | unknownOpcode => simp [footprint] at h

/-- No instruction writes memory or the key states (`20_memory.md` R54, `10_state.md` R31). -/
theorem mem_keys_not_mem_footprint (i : Instr) : .mem ∉ footprint i ∧ .keys ∉ footprint i := by
  cases i <;> simp [footprint]

/-- A write to a V register changes no other register. -/
theorem State.eq_of_readV_writeV_ne {x r : VReg} {b : Byte} (h : (s.writeV x b).readV r ≠ s.readV r) : r = x :=
  by_contra fun hr => h (s.readV_writeV_other hr b)

/-- A changed V register is the destination of a load or of an add, or VF of a draw. -/
theorem writer_of_readV_changed (e : exec i s = .next t) {r : VReg} (h : t.readV r ≠ s.readV r) :
    (∃ nn, i = .ldVxNn r nn) ∨ (∃ nn, i = .addVxNn r nn) ∨ i = .ldVxDt r ∨ (r = vf ∧ ∃ x y n, i = .drwVxVyN x y n) := by
  cases i with
  | ldVxNn x nn =>
    obtain rfl := Host.Outcome.next.inj e
    obtain rfl := State.eq_of_readV_writeV_ne h
    exact .inl ⟨nn, rfl⟩
  | addVxNn x nn =>
    obtain rfl := Host.Outcome.next.inj e
    obtain rfl := State.eq_of_readV_writeV_ne h
    exact .inr (.inl ⟨nn, rfl⟩)
  | ldVxDt x =>
    obtain rfl := Host.Outcome.next.inj e
    obtain rfl := State.eq_of_readV_writeV_ne h
    exact .inr (.inr (.inl rfl))
  | drwVxVyN x y n =>
    obtain ⟨_, others⟩ := exec_drw_cases e
    exact .inr (.inr (.inr ⟨by_contra fun hr => h (others r hr), x, y, n, rfl⟩))
  | cls | ret | jp | call | seVxNn | ldINnn | skpVx | sknpVx | ldVxK | ldDtVx | ldStVx | unknownOpcode =>
    exact absurd (exec_sameExcept_footprint e .v (by simp [footprint]) r) h

end

/-! ### Events in the faulted state (`60_exceptions.md` R167) -/

/-- An event other than `Reset()` is accepted in the faulted state and changes nothing in the core. -/
theorem deliver_of_faulted {e : Event} {m : Session} (hf : m.core.fault ≠ none) (he : e ≠ .reset) :
    ∃ m', deliver e m = .next m' ∧ m'.core = m.core := by
  have hsome : m.core.fault.isSome := Option.isSome_iff_ne_none.2 hf
  cases e with
  | reset => exact absurd rfl he
  | loadRom bytes => exact ⟨m, by rw [deliver, deliverLoad, if_pos hsome], rfl⟩
  | inputRefresh k => exact ⟨_, rfl, inputRefreshWith_of_faulted Config.keyOrder k hf⟩
  | cycle =>
    have hstep : step m.core = .next m.core := by rw [step, if_pos hsome]
    exact ⟨⟨m.core, true⟩, by rw [deliver, deliverCycle, hstep], rfl⟩

/-! ### The obligations -/

/-- Settles O13: the cycle of the underflowing `RET`, and the inversion of a step that records its fault. -/
theorem underflowingReturnEndsTheCycleUnticked : Obligations.UnderflowingReturnEndsTheCycleUnticked := by
  unfold Obligations.UnderflowingReturnEndsTheCycleUnticked
  refine ⟨fun s h hf hs => ?cycle, fun _ _ => ret_nil_of_step_stackUnderflow⟩
  case cycle =>
    exact ⟨_, step_of_fetch_ret_nil h hf hs, rfl, rfl, (sameExcept_setPc s (s.pc + 2)).append (sameExcept_raise _ _)⟩

/-- Settles O40: a changed element is in the instruction's footprint, which names its writers; for the V registers, the
timers and the fault record the inversion of the instruction says more. -/
theorem onlyTheNamedInstructionsWrite : Obligations.OnlyTheNamedInstructionsWrite := by
  unfold Obligations.OnlyTheNamedInstructionsWrite
  intro i s t e
  obtain ⟨hmem, hkeys⟩ := mem_keys_not_mem_footprint i
  refine ⟨fun r => writer_of_readV_changed e, fun h => ?i,
    fun h => writer_of_pc_mem_footprint (mem_footprint_of_changed e h),
    fun h => writer_of_stack_mem_footprint (mem_footprint_of_changed e h), fun h => ?delayTimer, fun h => ?soundTimer,
    exec_sameExcept_footprint e .mem hmem, fun p q h => ?fb, exec_sameExcept_footprint e .keys hkeys, fun h => ?wait,
    fun h => ?fault⟩
  case i => exact by_contra fun hi => h (exec_keeps_i (not_exists.1 hi) e)
  case delayTimer =>
    rcases exec_timer_cases e with ⟨x, hi, _⟩ | ⟨x, _, rfl⟩ | ⟨_, _, hkeep, _⟩
    · exact ⟨x, hi⟩
    · exact absurd rfl h
    · exact absurd hkeep h
  case soundTimer =>
    rcases exec_timer_cases e with ⟨x, _, rfl⟩ | ⟨x, hi, _⟩ | ⟨_, _, _, hkeep⟩
    · exact absurd rfl h
    · exact ⟨x, hi⟩
    · exact absurd hkeep h
  case fb => exact writer_of_fb_mem_footprint (mem_footprint_of_changed e fun same => h (same p q))
  case wait =>
    by_contra hi
    obtain ⟨hwait, hreg⟩ := exec_keeps_wait (not_exists.1 hi) e
    exact h.elim (· hwait) (· hreg)
  case fault =>
    rcases exec_fault_cases e with hkeep | ⟨hi, _⟩ | ⟨x, y, n, _, hi, _⟩ | ⟨x, hi, _⟩
    · exact absurd hkeep h
    · exact .inl hi
    · exact .inr (.inl ⟨x, y, n, hi⟩)
    · exact .inr (.inr (hi.imp (⟨x, ·⟩) (⟨x, ·⟩)))

/-- Settles O42: the cases of the fault record; the rows of a draw are the addresses from I on. -/
theorem eachInstructionRaisesOnlyItsOwnFault : Obligations.EachInstructionRaisesOnlyItsOwnFault := by
  unfold Obligations.EachInstructionRaisesOnlyItsOwnFault
  intro i s t f hs e ht
  rcases exec_fault_cases e with hkeep | ⟨hi, hstack, hf⟩ | ⟨x, y, n, r, hi, hr, hout, hbefore, hf⟩ | ⟨x, hi, hv, hf⟩
  · exact nomatch (hkeep.trans hs).symm.trans ht
  · exact .inl ⟨Option.some.inj (ht.symm.trans hf), hi, hstack⟩
  · refine .inr (.inl ⟨_, x, y, n, Option.some.inj (ht.symm.trans hf), hi, hout, by omega, by omega, fun b hle hlt => ?_⟩)
    have := hbefore (b - s.i.toNat) (by omega)
    omega
  · exact .inr (.inr ⟨_, x, Option.some.inj (ht.symm.trans hf), hi, rfl, hv⟩)

/-- Settles O43, by induction on the events: each of them leaves the faulted core as it was. -/
theorem faultedStateIsAbsorbing : Obligations.FaultedStateIsAbsorbing := by
  unfold Obligations.FaultedStateIsAbsorbing
  refine ⟨fun events => ?absorbing, fun _ => rfl⟩
  case absorbing =>
    induction events with
    | nil => exact fun m _ _ => ⟨m, rfl, rfl⟩
    | cons e rest ih =>
      intro m hf hall
      obtain ⟨he, hrest⟩ := List.forall_mem_cons.1 hall
      obtain ⟨m₁, hd, hcore⟩ := deliver_of_faulted hf he
      obtain ⟨m₂, hds, hcore'⟩ := ih m₁ (hcore ▸ hf) hrest
      exact ⟨m₂, by rw [deliverAll, hd]; exact hds, hcore'.trans hcore⟩

end Sys2Proof.Machine
end

section
/-! PROOFS of the family "Reset and hazards" (`70_reset_and_hazards.md`): the cycle of a jump to itself, and the run through
memory that no ROM was loaded into. -/

namespace Sys2Proof.Machine

/-! ### The end of a run (`70_reset_and_hazards.md` R203) -/

/-- An address in memory fits the operand of a jump, so the word of R203 is the encoding of the jump there. -/
theorem add_eq_encodeNnn {a : Word} (ha : a.toNat ≤ 0xFFE) : 0x1000 + a = encodeNnn 1 (a.setWidth 12) := by
  apply BitVec.eq_of_toNat_eq
  rw [encodeNnn_toNat (by decide), BitVec.toNat_setWidth]
  bv_omega

theorem zext16_setWidth {a : Word} (ha : a.toNat ≤ 0xFFE) : zext16 (a.setWidth 12) = a := by
  apply BitVec.eq_of_toNat_eq
  rw [zext16_toNat, BitVec.toNat_setWidth]
  omega

/-- The cycle of a jump to itself undoes the advance of pc, so that only the tick is left of it. -/
theorem step_of_endedWell {s : State} (h : s.EndedWell) : step s = .next s.tick := by
  obtain ⟨hrun, hpc, hfetch⟩ := h
  have hdecode : decodeWord (0x1000 + s.pc) = .jp (s.pc.setWidth 12) := by
    rw [add_eq_encodeNnn hpc]
    exact decodeWord_encode (i := .jp (s.pc.setWidth 12)) rfl
  have hback : s.advancePc.setPc s.pc = s := rfl
  rw [step_of_fetch hrun hfetch, hdecode, exec_jp, zext16_setWidth hpc, hback, endCycle_next,
    State.endCycle_of_none hrun.1]

/-- The tick moves neither pc nor the bytes there, and it starts neither a wait nor a fault. -/
theorem State.EndedWell.tick {s : State} (h : s.EndedWell) : s.tick.EndedWell := by
  obtain ⟨hrun, hpc, hfetch⟩ := h
  exact ⟨hrun, hpc, (State.fetch_congr s.tick_mem s.tick_pc).trans hfetch⟩

theorem sameExcept_tick (s : State) : SameExcept [.delayTimer, .soundTimer] s s.tick :=
  (sameExcept_setDelay s (decrement s.delayTimer)).append (sameExcept_setSound _ (decrement s.soundTimer))

/-! ### A run of the machine, one step longer -/

/-- The last step of a run: it is taken from the state that the run before it ends in. -/
theorem core_run_succ_of_run {k : Nat} {s t : State} (h : Sys2Proof.core.run k s = .next t) :
    Sys2Proof.core.run (k + 1) s = step t := by
  induction k generalizing s with
  | zero =>
    obtain rfl : s = t := Host.Outcome.next.inj h
    obtain ⟨u, hu⟩ := step_total s
    rw [core_run_succ 0 hu, hu]
    rfl
  | succ k ih =>
    obtain ⟨u, hu⟩ := step_total s
    rw [core_run_succ k hu] at h
    rw [core_run_succ (k + 1) hu]
    exact ih h

/-! ### Memory without a ROM (`70_reset_and_hazards.md` R191) -/

/-- Above the font the reset memory holds 0x00, so a fetch there reads the word 0x0000. -/
theorem fetch_reset_setPc {a : Word} (hlow : 0x50 ≤ a.toNat) (hhigh : a.toNat ≤ 0xFFE) :
    (State.reset.setPc a).fetch = .ok 0x0000 := by
  obtain ⟨_, hzero, _⟩ := resetLeavesTheStatedValues
  have hhi : State.reset.memRead a.toNat = .ok 0 := hzero _ hlow (by omega)
  have hlo : State.reset.memRead (a.toNat + 1) = .ok 0 := hzero _ (by omega) (by omega)
  exact State.fetch_of_memRead (s := State.reset.setPc a) hhi hlo

/-- The word 0x0000 is an unknown opcode, and both timers stand at 0 already: the step only advances pc. -/
theorem step_reset_setPc {a : Word} (hlow : 0x50 ≤ a.toNat) (hhigh : a.toNat ≤ 0xFFE) :
    step (State.reset.setPc a) = .next (State.reset.setPc (a + 2)) :=
  step_of_fetch_unknown ⟨rfl, rfl⟩ (fetch_reset_setPc hlow hhigh) (by decide)

/-- The address 0x1000 is the first one above memory: the fetch there raises, and nothing but the record changes. -/
theorem step_reset_setPc_top :
    step (State.reset.setPc 0x1000) = .next ((State.reset.setPc 0x1000).raise (.memoryBounds 0x1000)) :=
  step_of_fetch_error ⟨rfl, rfl⟩ (by decide)

/-- Each of the first 1792 steps from reset is one advance through the unloaded memory. -/
theorem core_run_reset {j : Nat} (hj : j ≤ 1792) :
    Sys2Proof.core.run j State.reset = .next (State.reset.setPc (BitVec.ofNat 16 (0x200 + 2 * j))) := by
  induction j with
  | zero => rfl
  | succ j ih =>
    have hpc : (BitVec.ofNat 16 (0x200 + 2 * j)).toNat = 0x200 + 2 * j := by
      rw [BitVec.toNat_ofNat, Nat.mod_eq_of_lt (by omega)]
    have hnext : BitVec.ofNat 16 (0x200 + 2 * j) + 2 = BitVec.ofNat 16 (0x200 + 2 * (j + 1)) :=
      (BitVec.ofNat_add (0x200 + 2 * j) 2).symm
    exact (core_run_succ_of_run (ih (by omega))).trans (hnext ▸ step_reset_setPc (by omega) (by omega))

/-! ### The obligations -/

/-- Settles O48: the step is the tick. -/
theorem endedWellStaysEndedWell : Obligations.EndedWellStaysEndedWell := by
  unfold Obligations.EndedWellStaysEndedWell
  exact fun s h => ⟨s.tick, step_of_endedWell h, h.tick, decrement_toNat _, decrement_toNat _, sameExcept_tick s⟩

/-- Settles O47: the run of the 1792 unknown opcodes, and the fetch at 0x1000 after it. -/
theorem unloadedMemoryRunsToTheBoundsFault : Obligations.UnloadedMemoryRunsToTheBoundsFault := by
  unfold Obligations.UnloadedMemoryRunsToTheBoundsFault
  refine ⟨fun j => core_run_reset, ?fault⟩
  case fault =>
    exact (core_run_succ_of_run (core_run_reset (Nat.le_refl 1792))).trans step_reset_setPc_top

end Sys2Proof.Machine
end
